-- ==== Sys2Proof/Word.lean ====
section
/-! DEFINITION. The word and address types of the VSM core. -/

namespace Sys2Proof

/-- A 16-bit memory word, the width of ACC and IR (R7 WORD_W, R8). -/
abbrev Word := BitVec 16

/-- An 11-bit word address, the width of PC and OPD (R7 OPERAND_W, PC_W). -/
abbrev Addr := BitVec 11

end Sys2Proof
end

