-- ==== Sys2Proof/Config.lean ====
section
/-! DEFINITION. The build parameters of R7: what one build of the core fixes for good. Their default values stand in
Sys2Proof/Machine/Build.lean and the default opcode map in Sys2Proof/Decode.lean. -/

namespace Sys2Proof

/-- DATA_HI, the inclusive upper bound of the data region: one of 2047 and 2038 (R7, D2). -/
inductive DataHi where
  | to2047
  | to2038
  deriving DecidableEq, Repr

/-- OPCODE_MAP: the opcode numbers of the thirteen instructions that the source does not number (R7, R49, D1).
EOC = 0, LOAD = 1 and HALT = 15 come from the source and are no parameters. -/
structure OpcodeMap where
  store : BitVec 4
  read : BitVec 4
  write : BitVec 4
  add : BitVec 4
  sub : BitVec 4
  mul : BitVec 4
  div : BitVec 4
  mod : BitVec 4
  neg : BitVec 4
  nop : BitVec 4
  jump : BitVec 4
  jneg : BitVec 4
  jzero : BitVec 4
  deriving DecidableEq, Repr

/-- One build of the core. -/
structure Config where
  /-- DATA_HI (R7, D2). -/
  dataHi : DataHi
  /-- OPCODE_MAP (R7, D1). -/
  opcodeMap : OpcodeMap
  deriving DecidableEq, Repr

/-- WRITE_RENDER, the OPEN host parameter (R7, D20). -/
inductive WriteRender where
  | signed
  | unsigned
  deriving DecidableEq, Repr

end Sys2Proof
end

