-- ==== Sys2Proof/Syntax.lean ====
section
/-! DEFINITION. The instructions: one constructor of `Instr` per row of spec/opcode_table.json, and the assembly
notation of R52. -/

namespace Sys2Proof

/-- The closed enumeration of the sixteen instruction names (R49, R60). -/
inductive Mnemonic where
  | eoc | load | store | read | write | add | sub | mul | div | mod | neg | nop | jump | jneg | jzero | halt
  deriving DecidableEq, Repr

/-- What OPD is to an instruction (the table of R48). -/
inductive OperandClass where
  | resolved
  | dataAddress
  | codeAddress
  | noOperand
  deriving DecidableEq, Repr

/-- A resolved operand: an immediate (M = 1) or a data address (M = 0) (R45, R47, R48). -/
inductive Operand where
  | imm (n : BitVec 11)
  | mem (a : Addr)
  deriving DecidableEq, Repr

/-- A decoded instruction. Where R48 calls a field ignored the constructor keeps its bits, so that encoding drops none,
and the meaning does not receive them (R51). -/
inductive Instr where
  | eoc (m : BitVec 1) (opd : BitVec 11)
  | load (v : Operand)
  | store (m : BitVec 1) (a : Addr)
  | read (m : BitVec 1) (a : Addr)
  | write (m : BitVec 1) (a : Addr)
  | add (v : Operand)
  | sub (v : Operand)
  | mul (v : Operand)
  | div (v : Operand)
  | mod (v : Operand)
  | neg (m : BitVec 1) (opd : BitVec 11)
  | nop (m : BitVec 1) (opd : BitVec 11)
  | jump (m : BitVec 1) (t : Addr)
  | jneg (m : BitVec 1) (t : Addr)
  | jzero (m : BitVec 1) (t : Addr)
  | halt (m : BitVec 1) (opd : BitVec 11)
  deriving DecidableEq, Repr

/-- Why a word has no instruction: its OP has no row in the opcode map (R64). Under a well-formed map no word is
rejected (R50). -/
inductive Rejected where
  | noRow (op : BitVec 4)
  deriving DecidableEq, Repr

/-- The operand part of an assembly line: absent, `#n` or `n` (R52). -/
inductive AsmOperand where
  | absent
  | hash (n : Nat)
  | plain (n : Nat)
  deriving DecidableEq, Repr

/-- One instruction in the notation of R52, before its operand has been checked. -/
structure AsmLine where
  mnemonic : Mnemonic
  operand : AsmOperand
  deriving DecidableEq, Repr

end Sys2Proof
end

