-- ==== Sys2Proof/WellFormed.lean ====
section
/-! DEFINITION. The checks: an opcode map, a build, a line of assembly. Every term of `Instr` is well formed, since its
fields have the widths of R45 and every 16-bit word is a defined instruction (R50). -/

namespace Sys2Proof

/-- The sixteen opcode numbers of a map, in the order of R49's table: the three the source fixes and the thirteen of
the map. -/
def OpcodeMap.numbers (k : OpcodeMap) : List (BitVec 4) :=
  [0, 1, k.store, k.read, k.write, k.add, k.sub, k.mul, k.div, k.mod, k.neg, k.nop, k.jump, k.jneg, k.jzero, 15]

/-- The map gives the thirteen instructions the numbers 2..14, each once (R49, D1). -/
def OpcodeMap.wf (k : OpcodeMap) : Bool := decide k.numbers.Nodup

/-- A build is well formed when its opcode map is; the type of DATA_HI admits only its two values. -/
def Config.wf (c : Config) : Bool := c.opcodeMap.wf

/-- The operand class of each instruction (the table of R48). -/
def Mnemonic.operandClass : Mnemonic → OperandClass
  | .load | .add | .sub | .mul | .div | .mod => .resolved
  | .store | .read | .write => .dataAddress
  | .jump | .jneg | .jzero => .codeAddress
  | .neg | .nop | .eoc | .halt => .noOperand

/-- A line of assembly is well formed: `#n` only for the resolved class, an address where one is named, no operand
where none is taken, and 0 ≤ n ≤ 2047 (R52). -/
def AsmLine.wf (l : AsmLine) : Bool :=
  match l.mnemonic.operandClass, l.operand with
  | .resolved, .hash n => decide (n ≤ 2047)
  | .resolved, .plain n => decide (n ≤ 2047)
  | .dataAddress, .plain n => decide (n ≤ 2047)
  | .codeAddress, .plain n => decide (n ≤ 2047)
  | .noOperand, .absent => true
  | _, _ => false

end Sys2Proof
end

