-- ==== Sys2Proof/Decode.lean ====
section
/-! DEFINITION. From a word to an instruction and back: the fields of R45 and R46, the opcode map of R49, the decoder,
the encoder and the assembler of R52. -/

namespace Sys2Proof

/-! ## Fields -/

/-- OP = IR[15:12] (R46). -/
def opField (w : Word) : BitVec 4 := w.extractLsb' 12 4

/-- M = IR[11] (R46). -/
def mField (w : Word) : BitVec 1 := w.extractLsb' 11 1

/-- OPD = IR[10:0] (R46). -/
def opdField (w : Word) : BitVec 11 := w.extractLsb' 0 11

/-- An instruction word is `opcode ++ m ++ operand` (R45). -/
def joinFields (op : BitVec 4) (m : BitVec 1) (opd : BitVec 11) : Word := op ++ m ++ opd

/-! ## The opcode map -/

/-- The default OPCODE_MAP: the order of the source's table, STORE = 2 to JZERO = 14 (R49, D1). -/
def OpcodeMap.default : OpcodeMap where
  store := 2
  read := 3
  write := 4
  add := 5
  sub := 6
  mul := 7
  div := 8
  mod := 9
  neg := 10
  nop := 11
  jump := 12
  jneg := 13
  jzero := 14

/-- The opcode number of an instruction under a map (R49). -/
def OpcodeMap.number (k : OpcodeMap) : Mnemonic → BitVec 4
  | .eoc => 0
  | .load => 1
  | .store => k.store
  | .read => k.read
  | .write => k.write
  | .add => k.add
  | .sub => k.sub
  | .mul => k.mul
  | .div => k.div
  | .mod => k.mod
  | .neg => k.neg
  | .nop => k.nop
  | .jump => k.jump
  | .jneg => k.jneg
  | .jzero => k.jzero
  | .halt => 15

/-- The thirteen instructions whose number the map gives, in the order of R49's table. -/
def Mnemonic.mapped : List Mnemonic :=
  [.store, .read, .write, .add, .sub, .mul, .div, .mod, .neg, .nop, .jump, .jneg, .jzero]

/-- The row of R60 that an OP selects: the three numbers of the source first (so that the terminal test of R59 reads OP
alone whatever the map says), then the map's. No row: R64. -/
def OpcodeMap.lookup (k : OpcodeMap) (op : BitVec 4) : Option Mnemonic :=
  if op = 0 then some .eoc
  else if op = 15 then some .halt
  else if op = 1 then some .load
  else Mnemonic.mapped.find? fun n => k.number n == op

/-! ## Instructions and their fields -/

/-- The operand that M and OPD stand for: M = 1 an immediate, M = 0 a data address (R45, R48). -/
def Operand.ofFields (m : BitVec 1) (opd : BitVec 11) : Operand := if m = 1 then .imm opd else .mem opd

/-- The M bit of a resolved operand (R45). -/
def Operand.mBit : Operand → BitVec 1
  | .imm _ => 1
  | .mem _ => 0

/-- The OPD field of a resolved operand (R45). -/
def Operand.opd : Operand → BitVec 11
  | .imm n => n
  | .mem a => a

/-- The instruction with a name and the fields M and OPD (R48). -/
def Instr.ofFields (n : Mnemonic) (m : BitVec 1) (opd : BitVec 11) : Instr :=
  match n with
  | .eoc => .eoc m opd
  | .load => .load (.ofFields m opd)
  | .store => .store m opd
  | .read => .read m opd
  | .write => .write m opd
  | .add => .add (.ofFields m opd)
  | .sub => .sub (.ofFields m opd)
  | .mul => .mul (.ofFields m opd)
  | .div => .div (.ofFields m opd)
  | .mod => .mod (.ofFields m opd)
  | .neg => .neg m opd
  | .nop => .nop m opd
  | .jump => .jump m opd
  | .jneg => .jneg m opd
  | .jzero => .jzero m opd
  | .halt => .halt m opd

/-- The name of an instruction. -/
def Instr.mnemonic : Instr → Mnemonic
  | .eoc _ _ => .eoc
  | .load _ => .load
  | .store _ _ => .store
  | .read _ _ => .read
  | .write _ _ => .write
  | .add _ => .add
  | .sub _ => .sub
  | .mul _ => .mul
  | .div _ => .div
  | .mod _ => .mod
  | .neg _ _ => .neg
  | .nop _ _ => .nop
  | .jump _ _ => .jump
  | .jneg _ _ => .jneg
  | .jzero _ _ => .jzero
  | .halt _ _ => .halt

/-- The M bit of an instruction's word (R45). -/
def Instr.mBit : Instr → BitVec 1
  | .load v | .add v | .sub v | .mul v | .div v | .mod v => v.mBit
  | .eoc m _ | .store m _ | .read m _ | .write m _ | .neg m _ | .nop m _ | .jump m _ | .jneg m _ | .jzero m _
  | .halt m _ => m

/-- The OPD field of an instruction's word (R45). -/
def Instr.opd : Instr → BitVec 11
  | .load v | .add v | .sub v | .mul v | .div v | .mod v => v.opd
  | .eoc _ x | .store _ x | .read _ x | .write _ x | .neg _ x | .nop _ x | .jump _ x | .jneg _ x | .jzero _ x
  | .halt _ x => x

/-- The data address an instruction validates, if it names one: the resolved class with M = 0, and STORE, READ, WRITE
(R48, R87). -/
def Instr.dataAddr? : Instr → Option Addr
  | .load (.mem a) | .add (.mem a) | .sub (.mem a) | .mul (.mem a) | .div (.mem a) | .mod (.mem a) => some a
  | .store _ a | .read _ a | .write _ a => some a
  | .load (.imm _) | .add (.imm _) | .sub (.imm _) | .mul (.imm _) | .div (.imm _) | .mod (.imm _) => none
  | .eoc _ _ | .neg _ _ | .nop _ _ | .jump _ _ | .jneg _ _ | .jzero _ _ | .halt _ _ => none

/-! ## Decoder and encoder -/

/-- Decode one word (R46, R58, R60). Total: a word whose OP has no row is rejected by name (R64). -/
def decode (k : OpcodeMap) (w : Word) : Except Rejected Instr :=
  match k.lookup (opField w) with
  | some n => .ok (.ofFields n (mField w) (opdField w))
  | none => .error (.noRow (opField w))

/-- The word of an instruction (R45, R49). -/
def encode (k : OpcodeMap) (i : Instr) : Word := joinFields (k.number i.mnemonic) i.mBit i.opd

/-- The instruction of a well-formed line of assembly (the table of R52): `#n` has M = 1, `n` has M = 0, and no operand
means M = 0 and OPD = 0. -/
def AsmLine.instr? (l : AsmLine) : Option Instr :=
  if l.wf then
    match l.operand with
    | .absent => some (.ofFields l.mnemonic 0 0)
    | .hash n => some (.ofFields l.mnemonic 1 (BitVec.ofNat 11 n))
    | .plain n => some (.ofFields l.mnemonic 0 (BitVec.ofNat 11 n))
  else none

/-- The instruction the decoder reads from the opcode table's bits under the default map. Every instruction is one
16-bit word (R45), so more than 16 bits are no instruction; bits above nbits are 0. -/
def decodeTableWord (nbits w : Nat) : Option Instr :=
  if nbits ≤ 16 then (decode .default (BitVec.ofNat 16 (w % 2 ^ nbits))).toOption else none

end Sys2Proof
end

