-- ==== Sys2Proof/Machine/Build.lean ====
section
/-! DEFINITION. The numbers of R7: region bounds, program sizes, and the default build. -/

namespace Sys2Proof.Machine

/-- MEM_WORDS (R7). -/
def memWords : Nat := 2048

/-- CODE_HI, the last address of the code region (R7). -/
def codeHi : Nat := 1023

/-- DATA_LO, the first address of the data region (R7). -/
def dataLo : Nat := 1024

/-- The value of DATA_HI (R7, D2). -/
def dataHi (c : Config) : Nat :=
  match c.dataHi with
  | .to2047 => 2047
  | .to2038 => 2038

/-- MIN_PROGRAM_WORDS (R7, R108). -/
def minProgramWords : Nat := 2

/-- MAX_PROGRAM_WORDS, the size of the code region (R7, R108, D18). -/
def maxProgramWords : Nat := 1024

/-- The default build: DATA_HI = 2047 and the default OPCODE_MAP (R7). -/
def defaultBuild : Config where
  dataHi := .to2047
  opcodeMap := .default

end Sys2Proof.Machine
end

