-- ==== Sys2Proof/Machine/State.lean ====
section
/-! DEFINITION. The state of the core (R13), of its ports (R27) and of what the host holds for it (R26), the errors and
the refusals, and the state after reset. -/

namespace Sys2Proof.Machine

/-- One listed word of memory: its word address and its value. The unit is the 16-bit word, since the memory has no bytes
(R8, R38; log entry 1). -/
abbrev Cell := Nat × Word

/-- MEM (R24): the words that are not 0x0000, at strictly rising addresses below 2048; an unlisted word reads 0x0000
(R29, R41; log entry 2). -/
abbrev Memory := List Cell

/-- STATUS (R21). -/
inductive Status where
  | idle
  | run
  | halted
  | faulted
  deriving DecidableEq, Repr

/-- The handshake in progress while the core holds (R55, R67, R69): none, a READ waiting for its answer, or a WRITE waiting
for out_ready. -/
inductive Hold where
  | noHold
  | waitIn
  | waitOut
  deriving DecidableEq, Repr

/-- One look at the host's side of the input port (R27, R67). -/
structure InPins where
  inValid : Bool
  inData : Word
  inEnd : Bool
  deriving DecidableEq, Repr

/-- The kind of access an InvalidAddress names (R89). -/
inductive Access where
  | data
  | fetch
  deriving DecidableEq, Repr

/-- The reasons of a fatal error (R87, R89): the `E(info)` of `raise` (R93). The spec gives the entry of each, so an
instruction that raises one has a NEXT state, the frozen state with STATUS = FAULTED; no meaning answers
`Host.Outcome.fault` (log entry 11). Safe: the machine goes on to the state the spec names. -/
inductive Fault where
  /-- Raised by the dispatch when OP has no row (R64, R88); safe, unreachable under a well-formed map. -/
  | invalidOpcode (op : BitVec 4)
  /-- Raised by ValidateData in LOAD, STORE, READ, WRITE, ADD, SUB, MUL, DIV, MOD (R33) and by ValidateFetch (R35);
  safe, the spec's own error. -/
  | invalidAddress (kind : Access) (a : Addr)
  /-- Raised by DIV and MOD when the resolved divisor is 0x0000 (R90); safe, the spec's own error. -/
  | divisionByZero
  /-- Raised by READ when the host answers end (R91); safe, the spec's own error. -/
  | inputError
  deriving DecidableEq, Repr

/-- Why the model gives no meaning. -/
inductive Refusal where
  /-- An instruction without a meaning; raised by no arm of exec. Safe. -/
  | notModelled (mnemonic : String)
  /-- ERRCODE holds a reserved value 5..7, raised by `step`: "never written. A model seeing one should `refuse`"
  (93_implementation_defined.md row 16; log entry 12). Safe, reached by no run. -/
  | reservedErrcode (code : BitVec 3)
  deriving DecidableEq, Repr

/-- The machine. -/
structure State where
  /-- The build parameters (R7): fixed, no step writes them; the model's own field (log entry 3). -/
  cfg : Config
  /-- MEM (R24). -/
  mem : Memory
  /-- ACC (R14). -/
  acc : Word
  /-- PC (R15). -/
  pc : Addr
  /-- IR (R17). -/
  ir : Word
  /-- OP (R18). -/
  op : BitVec 4
  /-- M (R18). -/
  m : BitVec 1
  /-- OPD (R18). -/
  opd : BitVec 11
  /-- STATUS (R21). -/
  status : Status
  /-- ERRCODE (R22). -/
  errcode : BitVec 3
  /-- The pending handshake (R55); the model's own field (log entry 8). -/
  hold : Hold
  /-- in_ready (R27, R67). -/
  inReady : Bool
  /-- out_valid (R27, R69). -/
  outValid : Bool
  /-- out_data (R27, R69). -/
  outData : Word
  /-- The input stream: the looks at the input port still to come, first one first (R26, R67; log entry 9). -/
  inStream : List InPins
  /-- out_ready, driven by the host (R27, R69; log entry 10). -/
  outReady : Bool
  /-- The output log, oldest word first (R26, R69). -/
  outLog : List Word
  deriving DecidableEq, Repr

/-- The machine right after reset (R29, R105), in the default build, with memory clear (R29, D22). The values the spec does
not give: out_data (log entry 5), the input stream (log entry 9), out_ready (log entry 10). -/
def State.reset : State where
  cfg := defaultBuild
  mem := []
  acc := 0
  pc := 0
  ir := 0
  op := 0
  m := 0
  opd := 0
  status := .idle
  errcode := 0
  hold := .noHold
  inReady := false
  outValid := false
  outData := 0
  inStream := []
  outReady := true
  outLog := []

end Sys2Proof.Machine
end

