-- ==== Sys2Proof/Machine/Ops.lean ====
section
/-! DEFINITION. The primitives of R11: memory, registers, `raise`, `stop`, ValidateData, ValidateFetch, InRead and
OutWrite. -/

namespace Sys2Proof.Machine

/-- What an instruction's meaning answers. -/
abbrev Result := Host.Outcome State Fault Refusal

/-! ## Memory -/

/-- `MemRead(a, 1)` (R31). -/
def Memory.read : Memory → Nat → Word
  | [], _ => 0
  | (k, v) :: rest, a => if k = a then v else Memory.read rest a

/-- `MemWrite(a, 1, v)` (R32), keeping the canonical form. -/
def Memory.write : Memory → Nat → Word → Memory
  | [], a, w => if w = 0 then [] else [(a, w)]
  | (k, v) :: rest, a, w =>
    if a < k then (if w = 0 then (k, v) :: rest else (a, w) :: (k, v) :: rest)
    else if a = k then (if w = 0 then rest else (a, w) :: rest)
    else (k, v) :: Memory.write rest a w

/-- The cells are at strictly rising addresses from `lo` on, below 2048, and none is 0x0000. -/
def Memory.wfFrom : Nat → Memory → Bool
  | _, [] => true
  | lo, (k, v) :: rest => decide (lo ≤ k) && decide (k < memWords) && decide (v ≠ 0) && Memory.wfFrom (k + 1) rest

/-- The canonical form of MEM. -/
def Memory.wf (m : Memory) : Bool := Memory.wfFrom 0 m

/-- The word at a word address (R31). -/
def State.memRead (s : State) (a : Addr) : Word := Memory.read s.mem a.toNat

/-- The state with one word of memory written (R32). -/
def State.memWrite (s : State) (a : Addr) (w : Word) : State := { s with mem := Memory.write s.mem a.toNat w }

/-! ## Registers -/

/-- `ACC <- v` (R11). -/
def State.setAcc (s : State) (v : Word) : State := { s with acc := v }

/-- `PC <- target` (R11). -/
def State.setPc (s : State) (target : Addr) : State := { s with pc := target }

/-! ## The error state -/

/-- The ERRCODE of an error (R22, R87). -/
def errCode : Fault → BitVec 3
  | .invalidOpcode _ => 1
  | .invalidAddress _ _ => 2
  | .divisionByZero => 3
  | .inputError => 4

/-- `raise E(info)`: STATUS <- FAULTED, ERRCODE <- code(E), nothing else (R93). -/
def raise (e : Fault) (s : State) : State := { s with status := .faulted, errcode := errCode e }

/-- `stop`: STATUS <- HALTED (R11, R59). -/
def stop (s : State) : State := { s with status := .halted }

/-! ## Address checks -/

/-- The data region of a build: DATA_LO..DATA_HI (R36). -/
abbrev InData (c : Config) (a : Addr) : Prop := dataLo ≤ a.toNat ∧ a.toNat ≤ dataHi c

/-- `ValidateData(a)` (R33). -/
def validateData (a : Addr) (s : State) : Except Fault Unit :=
  if InData s.cfg a then .ok () else .error (.invalidAddress .data a)

/-- `ValidateFetch(a)` (R35). -/
def validateFetch (a : Addr) : Except Fault Unit :=
  if a.toNat ≤ codeHi then .ok () else .error (.invalidAddress .fetch a)

/-- The end of an instruction: the error of a failed check is raised in the state before Execute, so that none of its
writes takes effect (R63, R93, R94). -/
def settle (s : State) : Except Fault State → Result
  | .ok t => .next t
  | .error e => .next (raise e s)

/-! ## Port primitives -/

/-- The core holds with a READ waiting: in_ready is high (R67). -/
def holdIn (s : State) : State := { s with inReady := true, hold := .waitIn }

/-- The READ to address `a` looks once at the input port: InRead (R67), then MemWrite (R68). in_end wins over in_valid;
with neither high the core holds. A look that shows neither is over; a shown end is not consumed (log entry 9). in_ready
is 1 from here on, whatever the answer: InRead sets it, and only reset clears it (R67, R105; log entry 6). -/
def readInto (a : Addr) (s : State) : State :=
  match s.inStream with
  | [] => holdIn s
  | p :: rest =>
    if p.inEnd then raise .inputError { s with inReady := true, hold := .noHold }
    else if p.inValid then
      { s.memWrite a p.inData with inStream := rest, inReady := true, hold := .noHold }
    else holdIn { s with inStream := rest }

/-- `OutWrite(v)` (R69): the word is presented, and appended to the log once out_ready is high; until then the core
holds. With out_ready high it is one step (D23). -/
def outWrite (v : Word) (s : State) : State :=
  if s.outReady then { s with outData := v, outValid := false, hold := .noHold, outLog := s.outLog ++ [v] }
  else { s with outData := v, outValid := true, hold := .waitOut }

end Sys2Proof.Machine
end

