-- ==== Sys2Proof/Machine/Operands.lean ====
section
/-! DEFINITION. Values and operand forms: s16, u16, zext_16, trunc_div, trunc_rem (R10) and Resolve (R61). -/

namespace Sys2Proof.Machine

/-- `s16(w)`: the two's-complement reading of a word (R10). -/
def s16 (w : Word) : Int := w.toInt

/-- `u16(i) = i mod 65536` (R10). -/
def u16 (i : Int) : Word := BitVec.ofInt 16 i

/-- `zext_16(v)`: an 11-bit value padded with zeros (R10, R47). -/
def zext16 (v : BitVec 11) : Word := v.setWidth 16

/-- `trunc_div(a, b)`: the quotient rounded toward zero (R10). -/
def truncDiv (a b : Int) : Int := a.tdiv b

/-- `trunc_rem(a, b) = a - b * trunc_div(a, b)` (R10). -/
def truncRem (a b : Int) : Int := a - b * truncDiv a b

/-- `Resolve(OPD, M)` (R61): an immediate is zero-extended; a data address is validated and its word read. -/
def resolve (v : Operand) (s : State) : Except Fault Word :=
  match v with
  | .imm n => .ok (zext16 n)
  | .mem a =>
    match validateData a s with
    | .error e => .error e
    | .ok () => .ok (s.memRead a)

/-- The shape of every instruction of the resolved class: resolve the operand, compute from it, write ACC (R63, R65, R73 to
R77). The address check comes before the computation's own check (R95). -/
def accumulate (v : Operand) (f : Word → Except Fault Word) (s : State) : Result :=
  settle s <|
    match resolve v s with
    | .error e => .error e
    | .ok w =>
      match f w with
      | .error e => .error e
      | .ok r => .ok (s.setAcc r)

/-- The shape of STORE, READ and WRITE: ValidateData(OPD) first, then the effect (R66, R68, R70). -/
def withDataAddr (a : Addr) (effect : State → State) (s : State) : Result :=
  settle s <|
    match validateData a s with
    | .error e => .error e
    | .ok () => .ok (effect s)

end Sys2Proof.Machine
end

