-- ==== Sys2Proof/Machine/Arith.lean ====
section
/-! DEFINITION. ADD, SUB, MUL, DIV, MOD and NEG (43_arithmetic.md): exact on the signed readings, the low 16 bits written
back (R72). -/

namespace Sys2Proof.Machine

/-- The zero-divisor check of DIV and MOD (R76, R77, R90). -/
def nonZeroDivisor (w : Word) (r : Word) : Except Fault Word := if w = 0 then .error .divisionByZero else .ok r

/-- ADD (R73). -/
def execAdd (v : Operand) (s : State) : Result := accumulate v (fun w => .ok (u16 (s16 s.acc + s16 w))) s

/-- SUB (R74). -/
def execSub (v : Operand) (s : State) : Result := accumulate v (fun w => .ok (u16 (s16 s.acc - s16 w))) s

/-- MUL (R75): the low 16 bits of the exact product. -/
def execMul (v : Operand) (s : State) : Result := accumulate v (fun w => .ok (u16 (s16 s.acc * s16 w))) s

/-- DIV (R76): truncated quotient; -32768 / -1 wraps to 0x8000 (D7). -/
def execDiv (v : Operand) (s : State) : Result :=
  accumulate v (fun w => nonZeroDivisor w (u16 (truncDiv (s16 s.acc) (s16 w)))) s

/-- MOD (R77): truncated remainder, with the dividend's sign (D8); a zero divisor is DivisionByZero (D4). -/
def execMod (v : Operand) (s : State) : Result :=
  accumulate v (fun w => nonZeroDivisor w (u16 (truncRem (s16 s.acc) (s16 w)))) s

/-- NEG (R78): the bitwise complement, not the arithmetic negation (C3). -/
def execNeg (s : State) : Result := .next (s.setAcc (s.acc ^^^ 0xFFFF))

end Sys2Proof.Machine
end

