-- ==== Sys2Proof/Machine/Flags.lean ====
section
/-! DEFINITION. The core has no flags (R20); what the conditional jumps test is ACC itself. -/

namespace Sys2Proof.Machine

/-- `s16(ACC) < 0`, the test of JNEG (R20, R81). -/
def accNegative (s : State) : Bool := decide (s16 s.acc < 0)

/-- `ACC = 0x0000`, the test of JZERO (R20, R82). -/
def accZero (s : State) : Bool := decide (s.acc = 0)

/-- A jump that is taken when its test holds: the target is absolute and not validated (R83). -/
def jumpIf (test : Bool) (target : Addr) (s : State) : State := if test then s.setPc target else s

end Sys2Proof.Machine
end

