-- ==== Sys2Proof/Machine/Control.lean ====
section
/-! DEFINITION. NOP, JUMP, JNEG and JZERO (44_control.md). PC already holds the instruction's address + 1. -/

namespace Sys2Proof.Machine

/-- NOP (R79): nothing beyond Fetch and Decode. -/
def execNop (s : State) : Result := .next s

/-- JUMP (R80). -/
def execJump (t : Addr) (s : State) : Result := .next (s.setPc t)

/-- JNEG (R81). -/
def execJneg (t : Addr) (s : State) : Result := .next (jumpIf (accNegative s) t s)

/-- JZERO (R82). -/
def execJzero (t : Addr) (s : State) : Result := .next (jumpIf (accZero s) t s)

end Sys2Proof.Machine
end

