-- ==== Sys2Proof/Machine/InOut.lean ====
section
/-! DEFINITION. READ and WRITE (42_io.md). -/

namespace Sys2Proof.Machine

/-- READ (R68): the address is validated before any input is taken. -/
def execRead (a : Addr) (s : State) : Result := withDataAddr a (readInto a) s

/-- WRITE (R70). -/
def execWrite (a : Addr) (s : State) : Result := withDataAddr a (fun s => outWrite (s.memRead a) s) s

end Sys2Proof.Machine
end

