-- ==== Sys2Proof/Machine/Terminal.lean ====
section
/-! DEFINITION. EOC and HALT (45_terminal.md): the terminal test of R59 stops the run. -/

namespace Sys2Proof.Machine

/-- EOC (R59, R84). -/
def execEoc (s : State) : Result := .next (stop s)

/-- HALT (R59, R85). -/
def execHalt (s : State) : Result := .next (stop s)

end Sys2Proof.Machine
end

