-- ==== Sys2Proof/Machine/Transfer.lean ====
section
/-! DEFINITION. LOAD and STORE (41_data_transfer.md). -/

namespace Sys2Proof.Machine

/-- LOAD (R65). -/
def execLoad (v : Operand) (s : State) : Result := accumulate v (fun w => .ok w) s

/-- STORE (R66). -/
def execStore (a : Addr) (s : State) : Result := withDataAddr a (fun s => s.memWrite a s.acc) s

end Sys2Proof.Machine
end

