-- ==== Sys2Proof/Machine/Dispatch.lean ====
section
/-! DEFINITION. The dispatch of R60: one arm per instruction. -/

namespace Sys2Proof.Machine

def exec (i : Instr) (s : State) : Host.Outcome State Fault Refusal :=
  match i with
  | .eoc _ _ => Sys2Proof.Machine.execEoc s
  | .load v => Sys2Proof.Machine.execLoad v s
  | .store _ a => Sys2Proof.Machine.execStore a s
  | .read _ a => Sys2Proof.Machine.execRead a s
  | .write _ a => Sys2Proof.Machine.execWrite a s
  | .add v => Sys2Proof.Machine.execAdd v s
  | .sub v => Sys2Proof.Machine.execSub v s
  | .mul v => Sys2Proof.Machine.execMul v s
  | .div v => Sys2Proof.Machine.execDiv v s
  | .mod v => Sys2Proof.Machine.execMod v s
  | .neg _ _ => Sys2Proof.Machine.execNeg s
  | .nop _ _ => Sys2Proof.Machine.execNop s
  | .jump _ t => Sys2Proof.Machine.execJump t s
  | .jneg _ t => Sys2Proof.Machine.execJneg t s
  | .jzero _ t => Sys2Proof.Machine.execJzero t s
  | .halt _ _ => Sys2Proof.Machine.execHalt s

end Sys2Proof.Machine
end

