-- ==== Sys2Proof/Machine/Cycle.lean ====
section
/-! DEFINITION. One step of the core: fetch guard, fetch, decode, execute (R55 to R60), and the steps of a core that holds
(R67, R69) or does not run (R21, R86, R96). -/

namespace Sys2Proof.Machine

/-- Fetch and Decode write IR, PC and the decode fields from the fetched word (R57, R58). -/
def latch (w : Word) (s : State) : State :=
  { s with ir := w, pc := s.pc + 1, op := opField w, m := mField w, opd := opdField w }

/-- Execute the word in IR (R60); an OP without a row is InvalidOpcode (R64). -/
def execWord (w : Word) (s : State) : Result :=
  match decode s.cfg.opcodeMap w with
  | .ok i => exec i s
  | .error (.noRow op) => .next (raise (.invalidOpcode op) s)

/-- `Step()` of R55: the guard first (R56), then fetch, decode and execute. -/
def stepInstr (s : State) : Result :=
  match validateFetch s.pc with
  | .error e => .next (raise e s)
  | .ok () => execWord (s.memRead s.pc) (latch (s.memRead s.pc) s)

/-- A step while STATUS = RUN: a whole instruction, or another look at the port a held READ or WRITE waits on. Execute
reads OPD (R18). -/
def stepRun (s : State) : Result :=
  match s.hold with
  | .noHold => stepInstr s
  | .waitIn => .next (readInto s.opd s)
  | .waitOut => .next (outWrite s.outData s)

/-- ERRCODE values 5..7 are reserved (R22). -/
def reservedErrcode (e : BitVec 3) : Bool := decide (4 < e.toNat)

/-- A step of the core. Outside RUN nothing happens: IDLE waits for the host, HALTED and FAULTED are absorbing (R21, R86,
R96; log entry 7). -/
def stepCore (s : State) : Result :=
  if reservedErrcode s.errcode then .refused (.reservedErrcode s.errcode)
  else
    match s.status with
    | .run => stepRun s
    | .idle => .next s
    | .halted => .next s
    | .faulted => .next s

/-- The state in which the very next step fetches and runs the word `w`: the host's load and start (R106) put the word at
PC and set STATUS to RUN (log entry 14). -/
def placeWord (w : Word) (s : State) : State :=
  { s.memWrite s.pc w with status := .run, errcode := 0, hold := .noHold }

end Sys2Proof.Machine
end

