-- ==== Sys2Proof/Machine/Step.lean ====
section
/-! DEFINITION. The step of the machine, and the placing of one instruction for it to run. -/

namespace Sys2Proof.Machine

/-- One step (R55; Machine/Cycle.lean). -/
def step (s : State) : Host.Outcome State Fault Refusal := stepCore s

/-- The state with an instruction of the opcode table placed where `step` fetches next (PC in the code region). -/
def State.withFetchWord (s : State) (nbits w : Nat) : State := placeWord (BitVec.ofNat 16 (w % 2 ^ nbits)) s

end Sys2Proof.Machine
end

