-- ==== Sys2Proof/Machine/Ports.lean ====
section
/-! DEFINITION. What the host does to the core and sees of it (R27): reset, the load port, start, the input and output
ports, the status pins, the debug read port, and the load sequence of R106 to R113. Each acts between two steps. -/

namespace Sys2Proof.Machine

/-! ## Pins the host drives -/

/-- `rst` asserted, in any state (R105). MEM, out_data and the host's pins stay; the output log of the next run starts
empty (R112; log entry 13). -/
def assertReset (s : State) : State :=
  { s with
    acc := 0, pc := 0, ir := 0, op := 0, m := 0, opd := 0
    status := .idle, errcode := 0
    inReady := false, outValid := false
    hold := .noHold, outLog := [] }

/-- A write on the load port: only while STATUS = IDLE (R27, R28). -/
def loadPort (a : Addr) (w : Word) (s : State) : State := if s.status = .idle then s.memWrite a w else s

/-- `start`: IDLE to RUN, ignored elsewhere (R27, R107). -/
def start (s : State) : State := if s.status = .idle then { s with status := .run } else s

/-- One more look at the input port is offered (R26, R67). -/
def driveInput (p : InPins) (s : State) : State := { s with inStream := s.inStream ++ [p] }

/-- out_ready is driven (R69). -/
def driveOutReady (level : Bool) (s : State) : State := { s with outReady := level }

/-! ## Pins the host reads -/

/-- The two bits of STATUS (R21). -/
def statusBits : Status → BitVec 2
  | .idle => 0
  | .run => 1
  | .halted => 2
  | .faulted => 3

/-- The status port: STATUS and ERRCODE (R27). -/
structure StatusPort where
  status : BitVec 2
  errcode : BitVec 3
  deriving DecidableEq, Repr

/-- Reading the status port (R27). -/
def readStatus (s : State) : StatusPort where
  status := statusBits s.status
  errcode := s.errcode

/-- The debug port's view at one `dbg_addr` (R27, R102); PC is read out zero-extended to 16 bits (D17). -/
structure DebugView where
  mem : Word
  acc : Word
  pc : Word
  ir : Word
  op : BitVec 4
  m : BitVec 1
  opd : BitVec 11
  status : BitVec 2
  errcode : BitVec 3
  deriving DecidableEq, Repr

/-- Reading the debug port, in any state, with no side effect (R102). -/
def debugRead (a : Addr) (s : State) : DebugView where
  mem := s.memRead a
  acc := s.acc
  pc := s.pc.setWidth 16
  ir := s.ir
  op := s.op
  m := s.m
  opd := s.opd
  status := statusBits s.status
  errcode := s.errcode

/-- The number the host prints for a WRITE word, by WRITE_RENDER (R69, D20). -/
def renderWord (r : WriteRender) (w : Word) : Int :=
  match r with
  | .signed => w.toInt
  | .unsigned => w.toNat

/-- What identifies the error in a frozen state (the last column of R87): for InvalidAddress, OPD when the instruction in
IR names a data address that is outside the region, else PC (R89; log entry 11). -/
def faultReason (s : State) : Option Fault :=
  if s.errcode = 1 then some (.invalidOpcode s.op)
  else if s.errcode = 2 then
    match decode s.cfg.opcodeMap s.ir with
    | .ok i =>
      match i.dataAddr? with
      | some a =>
        match validateData a s with
        | .ok () => some (.invalidAddress .fetch s.pc)
        | .error _ => some (.invalidAddress .data s.opd)
      | none => some (.invalidAddress .fetch s.pc)
    | .error _ => some (.invalidAddress .fetch s.pc)
  else if s.errcode = 3 then some .divisionByZero
  else if s.errcode = 4 then some .inputError
  else none

/-! ## The load sequence -/

/-- A parsed token of the host's stream: a word, or text that is not four hexadecimal digits (R54, R111). -/
inductive Token where
  | word (w : Word)
  | malformed
  deriving DecidableEq, Repr

/-- The host's own errors (R92, R111): the core does not start and records nothing. -/
inductive LoadFailure where
  | loadError
  | inputError
  deriving DecidableEq, Repr

/-- What the copy loop leaves: the words copied, and the rest of the stream or a failure. -/
structure Copied where
  words : List Word
  rest : Except LoadFailure (List Token)

/-- The copy rule (R109) with room for `room` words: up to the first 0x0000, which is copied too, or to the end of the
stream; a malformed token is an InputError (R111); a word beyond the room is a LoadError (R108, D18). DESIGN CHOICE: a
word beyond the room ends the copy, so a malformed token after it is never looked at, and the error is LoadError; the
spec does not say which error such a stream gives (log entry 21). -/
def copyProgram : Nat → List Token → Copied
  | _, [] => { words := [], rest := .ok [] }
  | _, .malformed :: _ => { words := [], rest := .error .inputError }
  | 0, .word _ :: _ => { words := [], rest := .error .loadError }
  | room + 1, .word w :: rest =>
    if w = 0 then { words := [w], rest := .ok rest }
    else { words := w :: (copyProgram room rest).words, rest := (copyProgram room rest).rest }
termination_by structural _ stream => stream

/-- Writing words to MEM[i], MEM[i+1], … through the load port (R106 step 3). -/
def loadWords : Nat → List Word → State → State
  | _, [], s => s
  | i, w :: rest, s => loadWords (i + 1) rest (loadPort (BitVec.ofNat 11 i) w s)

/-- Clearing all of MEM through the load port: every word reads 0x0000 (R106 step 2, D22). -/
def clearMemory (s : State) : State := if s.status = .idle then { s with mem := [] } else s

/-- The look at the input port that a token answers a READ with (R67, D19). -/
def tokenPins : Token → InPins
  | .word w => { inValid := true, inData := w, inEnd := false }
  | .malformed => { inValid := false, inData := 0, inEnd := true }

/-- The end of the host's stream, as the input port shows it (R67). -/
def endPins : InPins where
  inValid := false
  inData := 0
  inEnd := true

/-- The tokens after the program are the input of READ, then `end` (R110). DESIGN CHOICE: the host offers each of them at
the first look, without a look that shows neither in_valid nor in_end; R104 does not say when the host answers (log entry
20). -/
def feedInput (rest : List Token) (s : State) : State := { s with inStream := rest.map tokenPins ++ [endPins] }

/-- The size rule (R108): 2 ≤ n ≤ 1024. -/
def sizeOk (n : Nat) : Bool := decide (minProgramWords ≤ n) && decide (n ≤ maxProgramWords)

/-- What the boot leaves: the core, and the host's own error if the load failed. -/
structure Boot where
  state : State
  failure : Option LoadFailure

/-- The boot order (R106): reset, clear, copy, check the size, start. After a failure the core stays IDLE (R113; log entry
17). -/
def boot (stream : List Token) (s : State) : Boot :=
  let c := copyProgram maxProgramWords stream
  let loaded := loadWords 0 c.words (clearMemory (assertReset s))
  match c.rest with
  | .error e => { state := loaded, failure := some e }
  | .ok rest =>
    if sizeOk c.words.length then { state := start (feedInput rest loaded), failure := none }
    else { state := loaded, failure := some .loadError }

end Sys2Proof.Machine
end

