-- ==== Sys2Proof/Safety.lean ====
section
/-! DEFINITION. What claims speak of: the invariant of the machine, the end of a run and what is observed of it (R104). -/

namespace Sys2Proof.Machine

/-- `Resolve(OPD, M)` returns the word `w` (R61): an immediate zero-extended, or the word at a data address that passes
ValidateData. -/
def ResolvesTo (s : State) (v : Operand) (w : Word) : Prop :=
  match v with
  | .imm n => w = n.setWidth 16
  | .mem a => InData s.cfg a ∧ w = s.memRead a

/-- `Resolve(OPD, M)` raises InvalidAddress (R61): M = 0 and the address is outside 1024..DATA_HI. -/
def ResolveFails (s : State) (v : Operand) : Prop :=
  match v with
  | .imm _ => False
  | .mem a => ¬ InData s.cfg a

/-- The instruction is a jump that is taken in this state: JUMP always, JNEG when ACC is negative, JZERO when ACC is zero
(R80, R81, R82). -/
def JumpTaken (i : Instr) (s : State) : Prop :=
  i.mnemonic = .jump ∨ (i.mnemonic = .jneg ∧ s.acc.toInt < 0) ∨ (i.mnemonic = .jzero ∧ s.acc = 0)

/-- What holds of every state the core can be in under a well-formed build. -/
structure State.Inv (s : State) : Prop where
  /-- The opcode map is a map of R49. -/
  cfgWf : s.cfg.wf = true
  /-- MEM is in its canonical form. -/
  memWf : s.mem.wf = true
  /-- ERRCODE never holds a reserved value (R22). -/
  errcodeLegal : s.errcode.toNat ≤ 4
  /-- ERRCODE is non-zero exactly when STATUS = FAULTED (R22). -/
  faulted_iff : s.errcode ≠ 0 ↔ s.status = .faulted
  /-- OP, M and OPD are the fields of IR (R18, R58). -/
  fields : s.op = opField s.ir ∧ s.m = mField s.ir ∧ s.opd = opdField s.ir
  /-- HALTED means that Decode saw EOC or HALT (R21). -/
  halted_terminal : s.status = .halted → s.op = 0 ∨ s.op = 15
  /-- Only a running core holds (R21). -/
  hold_run : s.hold ≠ .noHold → s.status = .run
  /-- A waiting READ asks for a word for a valid data address (R67, R68). -/
  waitIn_pending : s.hold = .waitIn →
    s.inReady = true ∧ InData s.cfg s.opd ∧ ∃ b, decode s.cfg.opcodeMap s.ir = .ok (.read b s.opd)
  /-- A waiting WRITE presents the word at a valid data address (R69, R70). -/
  waitOut_pending : s.hold = .waitOut →
    s.outData = s.memRead s.opd ∧ InData s.cfg s.opd ∧ ∃ b, decode s.cfg.opcodeMap s.ir = .ok (.write b s.opd)
  /-- out_valid is high exactly while a WRITE waits (R69). -/
  outValid_iff : s.outValid = true ↔ s.hold = .waitOut
  /-- An idle core is as reset left it (R29, R112), MEM apart. -/
  idle_clean : s.status = .idle → s.acc = 0 ∧ s.pc = 0 ∧ s.ir = 0 ∧ s.outLog = []
  /-- Unless the core has faulted, the instruction in IR named no invalid data address (R33, R94). -/
  served : s.status ≠ .faulted →
    ∀ i a, decode s.cfg.opcodeMap s.ir = .ok i → i.dataAddr? = some a → InData s.cfg a

/-- How a run ended (R104). -/
inductive RunEnd where
  | halted
  | faulted (errcode : BitVec 3)
  deriving DecidableEq, Repr

/-- The end of a run, if it has ended (R104). -/
def State.runEnd (s : State) : Option RunEnd :=
  match s.status with
  | .halted => some .halted
  | .faulted => some (.faulted s.errcode)
  | .idle | .run => none

/-- What is observed of a run that has ended: registers and memory through the debug port, and the output log (R102,
R104). -/
structure Observation where
  ending : RunEnd
  view : List DebugView
  outLog : List Word
  deriving DecidableEq, Repr

/-- The observation of an ended run (R104). -/
def State.observe (s : State) : Option Observation :=
  s.runEnd.map fun e =>
    { ending := e
      view := (List.range memWords).map fun a => debugRead (BitVec.ofNat 11 a) s
      outLog := s.outLog }

/-- The host's part in a run, between steps: it answers, takes output, or leaves the core alone (R97). -/
inductive HostMove where
  | none
  | offer (p : InPins)
  | outReady (level : Bool)
  deriving DecidableEq, Repr

/-- The host's move on the core. -/
def hostMove : HostMove → State → State
  | .none, s => s
  | .offer p, s => driveInput p s
  | .outReady level, s => driveOutReady level s

/-- A state is reached from another by steps and host moves of a run (R104). -/
inductive Reaches : State → State → Prop where
  | refl (s : State) : Reaches s s
  | step {s t u : State} : Reaches s t → step t = .next u → Reaches s u
  | host {s t : State} (h : HostMove) : Reaches s t → Reaches s (hostMove h t)

/-- Two states differ at most in the data words that no access reaches: above DATA_HI (R36). -/
def AgreeReachable (s t : State) : Prop :=
  t = { s with mem := t.mem } ∧ ∀ a : Addr, (a.toNat ≤ codeHi ∨ InData s.cfg a) → t.memRead a = s.memRead a

end Sys2Proof.Machine
end

