-- ==== Sys2Proof/Certificates/Slice0/Obligations.lean ====
section
/-! DEFINITION. The statements about the VSM core. A state that a step, an instruction or a port leads to is written as a
record update of the state before, so that each such statement is a frame as well: a field not named is unchanged. -/

open Sys2Proof Sys2Proof.Machine

/-! ## Encoding -/

/-- Under a map of R49, decoding the word of an instruction gives the instruction, every operand at every value. -/
def Obligations.DecodeOfEncodeIsTheInstruction : Prop :=
  ∀ (k : OpcodeMap) (i : Instr), k.wf = true → decode k (encode k i) = .ok i

/-- Encoding a decoded word gives the word, under every map: no bit of a word is dropped. -/
def Obligations.EncodeOfDecodeIsTheWord : Prop :=
  ∀ (k : OpcodeMap) (w : Word) (i : Instr), decode k w = .ok i → encode k i = w

/-- R50: under a map of R49 every word is an instruction, and no step raises InvalidOpcode. -/
def Obligations.EveryWordIsADefinedInstruction : Prop :=
  (∀ (k : OpcodeMap) (w : Word), k.wf = true → ∃ i, decode k w = .ok i) ∧
  ∀ s t : State, s.cfg.wf = true → s.errcode ≠ 1 → step s = .next t → t.errcode ≠ 1

/-- R45, R46: the fields of a word by number, and the word of three fields. -/
def Obligations.FieldsOfAWord : Prop :=
  (∀ w : Word, (opField w).toNat = w.toNat / 4096 ∧ (mField w).toNat = w.toNat / 2048 % 2 ∧
    (opdField w).toNat = w.toNat % 2048) ∧
  ∀ (op : BitVec 4) (m : BitVec 1) (opd : BitVec 11),
    (joinFields op m opd).toNat = op.toNat * 4096 + m.toNat * 2048 + opd.toNat

/-- Words written out from the table of R45 and R49, one per family, decode to what they stand for. -/
def Obligations.WrittenOutWordsDecodeRight : Prop :=
  decode .default 0b0001_1_00000000101#16 = .ok (.load (.imm 5)) ∧
  decode .default 0b0010_1_10000000000#16 = .ok (.store 1 1024) ∧
  decode .default 0b0011_0_10000000001#16 = .ok (.read 0 1025) ∧
  decode .default 0b0101_0_10000000001#16 = .ok (.add (.mem 1025)) ∧
  decode .default 0b1110_0_00000001101#16 = .ok (.jzero 0 13) ∧
  decode .default 0b1111_1_11111111111#16 = .ok (.halt 1 2047)

/-- R52: a line of assembly is well formed exactly when its operand is of its instruction's class and in range, and then it
names the instruction with M and OPD of R52's table; any other line names none. -/
def Obligations.AssemblyLinesNameInstructions : Prop :=
  ∀ (n : Mnemonic) (x : Nat),
    (AsmLine.mk n .absent).instr? =
      (if n ∈ [Mnemonic.neg, .nop, .eoc, .halt] then some (.ofFields n 0 0) else none) ∧
    (AsmLine.mk n (.hash x)).instr? =
      (if n ∈ [Mnemonic.load, .add, .sub, .mul, .div, .mod] ∧ x ≤ 2047 then some (.ofFields n 1 (BitVec.ofNat 11 x))
        else none) ∧
    (AsmLine.mk n (.plain x)).instr? =
      (if n ∉ [Mnemonic.neg, .nop, .eoc, .halt] ∧ x ≤ 2047 then some (.ofFields n 0 (BitVec.ofNat 11 x)) else none)

/-! ## Memory and its regions -/

/-- R31, R32: on canonical memory a written word reads back, every other word reads as before, and the form is kept. -/
def Obligations.WordReadsBackAfterWrite : Prop :=
  ∀ (s : State) (a b : Addr) (w : Word), s.mem.wf = true →
    (s.memWrite a w).memRead b = (if b = a then w else s.memRead b) ∧ (s.memWrite a w).mem.wf = true

/-- Canonical memories that read alike are equal: the form is canonical. The form is the model's choice (log entry 1). -/
def Obligations.CanonicalMemoryIsDeterminedByItsWords : Prop :=
  ∀ s t : State, s.mem.wf = true → t.mem.wf = true → (∀ a : Addr, s.memRead a = t.memRead a) → s.mem = t.mem

/-- R33: ValidateData passes exactly in 1024..DATA_HI, and with DATA_HI = 2047 exactly when bit 10 is set; every
instruction that names a data address validates it, under the one bound. -/
def Obligations.DataAddressIsValidatedEverywhere : Prop :=
  (∀ (a : Addr) (s : State), validateData a s =
    if 1024 ≤ a.toNat ∧ a.toNat ≤ (if s.cfg.dataHi = .to2047 then 2047 else 2038) then .ok ()
    else .error (.invalidAddress .data a)) ∧
  (∀ (a : Addr) (s : State), s.cfg.dataHi = .to2047 → (validateData a s = .ok () ↔ a.getLsbD 10 = true)) ∧
  ∀ (i : Instr) (a : Addr) (s : State), i.dataAddr? = some a → validateData a s ≠ .ok () →
    exec i s = .next { s with status := .faulted, errcode := 2 }

/-- R34: a data access to 0..1023 is InvalidAddress and never mutates memory; the machine's frozen state is the state
before Execute but for STATUS and ERRCODE. -/
def Obligations.DataAccessNeverReachesCode : Prop :=
  ∀ (a : Addr) (m : BitVec 1) (s : State), a.toNat ≤ 1023 → ∀ i : Instr,
    i ∈ [Instr.store m a, .read m a, .write m a, .load (.mem a), .add (.mem a), .sub (.mem a), .mul (.mem a),
      .div (.mem a), .mod (.mem a)] →
    exec i s = .next { s with status := .faulted, errcode := 2 }

/-- R43 over a run: whatever the program does and the host answers, no word of the code region changes, nor any word above
DATA_HI (R36), nor the build parameters. -/
def Obligations.RunNeverWritesOutsideTheDataRegion : Prop :=
  ∀ s t : State, s.Inv → Reaches s t →
    t.cfg = s.cfg ∧ ∀ a : Addr, ¬ (1024 ≤ a.toNat ∧ a.toNat ≤ dataHi s.cfg) → t.memRead a = s.memRead a

/-- R36: the words above DATA_HI are reached by nothing. Two canonical states that differ at most there make the same step,
and then are canonical and again differ at most there, so that the statement iterates over a run. -/
def Obligations.UnreachableWordsDoNotMatter : Prop :=
  ∀ s t s' : State, s.mem.wf = true → t.mem.wf = true → AgreeReachable s t → step s = .next s' →
    ∃ t', step t = .next t' ∧ s'.mem.wf = true ∧ t'.mem.wf = true ∧ AgreeReachable s' t'

/-! ## The step -/

/-- R35, R56: at PC ≥ 1024 the step writes nothing except STATUS and ERRCODE. -/
def Obligations.FetchGuardFaults : Prop :=
  ∀ s : State, s.errcode.toNat ≤ 4 → s.status = .run → s.hold = .noHold → 1024 ≤ s.pc.toNat →
    step s = .next { s with status := .faulted, errcode := 2 }

/-- R57, R58: when the word at PC decodes to an instruction, the step is that instruction's Execute in the state in which
Fetch has written IR and advanced PC (which does not wrap) and Decode has written OP, M and OPD. -/
def Obligations.StepRunsTheDecodedInstruction : Prop :=
  ∀ (s : State) (i : Instr), s.errcode.toNat ≤ 4 → s.status = .run → s.hold = .noHold → s.pc.toNat ≤ 1023 →
    decode s.cfg.opcodeMap (s.memRead s.pc) = .ok i →
    (s.pc + 1).toNat = s.pc.toNat + 1 ∧
    step s = exec i { s with
      ir := s.memRead s.pc
      pc := s.pc + 1
      op := (s.memRead s.pc).extractLsb' 12 4
      m := (s.memRead s.pc).extractLsb' 11 1
      opd := (s.memRead s.pc).extractLsb' 0 11 }

/-- R64: an OP without a row raises InvalidOpcode, and nothing else is written after Fetch and Decode; under a map of R49
there is no such OP. -/
def Obligations.OpWithoutARowIsInvalidOpcode : Prop :=
  ∀ (s : State) (r : Rejected), s.errcode.toNat ≤ 4 → s.status = .run → s.hold = .noHold → s.pc.toNat ≤ 1023 →
    decode s.cfg.opcodeMap (s.memRead s.pc) = .error r →
    s.cfg.wf = false ∧
    step s = .next { s with
      ir := s.memRead s.pc
      pc := s.pc + 1
      op := (s.memRead s.pc).extractLsb' 12 4
      m := (s.memRead s.pc).extractLsb' 11 1
      opd := (s.memRead s.pc).extractLsb' 0 11
      status := .faulted
      errcode := 1 }

/-- R59: an OP of 0 or 15 halts, whatever M and OPD are and whatever the opcode map is; PC is the word's address + 1, IR
the word, and ACC, MEM, the output and ERRCODE are untouched. -/
def Obligations.TerminalWordHalts : Prop :=
  ∀ s : State, s.errcode.toNat ≤ 4 → s.status = .run → s.hold = .noHold → s.pc.toNat ≤ 1023 →
    ((s.memRead s.pc).toNat / 4096 = 0 ∨ (s.memRead s.pc).toNat / 4096 = 15) →
    step s = .next { s with
      ir := s.memRead s.pc
      pc := s.pc + 1
      op := (s.memRead s.pc).extractLsb' 12 4
      m := (s.memRead s.pc).extractLsb' 11 1
      opd := (s.memRead s.pc).extractLsb' 0 11
      status := .halted }

/-- Outside RUN a step changes nothing, and neither start nor the load port changes a core that is halted or faulted. That
the model's step answers the unchanged state is its choice (log entry 7). -/
def Obligations.HaltedAndFaultedAreAbsorbing : Prop :=
  ∀ s : State, s.errcode.toNat ≤ 4 →
    (s.status ≠ .run → step s = .next s) ∧
    (s.status = .halted ∨ s.status = .faulted → start s = s ∧ ∀ a w, loadPort a w s = s)

/-- A step answers a next state in every state whose ERRCODE is not reserved, and refuses a reserved one (row 16 of
93_implementation_defined.md). -/
def Obligations.StepAlwaysAnswersUnlessErrcodeIsReserved : Prop :=
  ∀ s : State, (s.errcode.toNat ≤ 4 → ∃ t, step s = .next t) ∧
    (5 ≤ s.errcode.toNat → step s = .refused (.reservedErrcode s.errcode))

/-! ## Instructions -/

/-- R65. -/
def Obligations.LoadWritesTheAccumulator : Prop :=
  ∀ s : State,
    (∀ n : BitVec 11, exec (.load (.imm n)) s = .next { s with acc := BitVec.ofNat 16 n.toNat }) ∧
    (∀ a : Addr, InData s.cfg a → exec (.load (.mem a)) s = .next { s with acc := s.memRead a }) ∧
    (∀ a : Addr, ¬ InData s.cfg a → exec (.load (.mem a)) s = .next { s with status := .faulted, errcode := 2 })

/-- R66, M ignored. -/
def Obligations.StoreWritesTheAccumulatorToMemory : Prop :=
  ∀ (s : State) (m : BitVec 1) (a : Addr), s.mem.wf = true →
    (InData s.cfg a → ∃ t, exec (.store m a) s = .next t ∧ t = { s with mem := t.mem } ∧ t.memRead a = s.acc ∧
      ∀ b : Addr, b ≠ a → t.memRead b = s.memRead b) ∧
    (¬ InData s.cfg a → exec (.store m a) s = .next { s with status := .faulted, errcode := 2 })

/-- R68: an answered word is stored, `end` (which wins over a word) is InputError, and an invalid address is refused before
any input is taken. in_ready is 1 after either answer, since InRead set it and only reset clears it (log entry 6); that
the answer is the first look of the stream is the model's form of the host's side (log entry 9). -/
def Obligations.ReadStoresTheAnsweredWord : Prop :=
  ∀ (s : State) (m : BitVec 1) (a : Addr), s.mem.wf = true →
    (∀ (p : InPins) (rest : List InPins), InData s.cfg a → s.inStream = p :: rest → p.inEnd = false →
      p.inValid = true →
      ∃ t, exec (.read m a) s = .next t ∧
        t = { s with mem := t.mem, inStream := rest, inReady := true, hold := .noHold } ∧
        t.memRead a = p.inData ∧ ∀ b : Addr, b ≠ a → t.memRead b = s.memRead b) ∧
    (∀ (p : InPins) (rest : List InPins), InData s.cfg a → s.inStream = p :: rest → p.inEnd = true →
      exec (.read m a) s = .next { s with inReady := true, hold := .noHold, status := .faulted, errcode := 4 }) ∧
    (¬ InData s.cfg a → exec (.read m a) s = .next { s with status := .faulted, errcode := 2 })

/-- R67: with neither in_valid nor in_end the READ raises in_ready and holds, and each later step of the held core is the
READ's Execute again. That a look without an answer leaves the stream is the model's form of the wait (log entry 9). -/
def Obligations.ReadHoldsUntilAnswered : Prop :=
  (∀ (s : State) (m : BitVec 1) (a : Addr), InData s.cfg a →
    (s.inStream = [] → exec (.read m a) s = .next { s with inReady := true, hold := .waitIn }) ∧
    (∀ (p : InPins) (rest : List InPins), s.inStream = p :: rest → p.inEnd = false → p.inValid = false →
      exec (.read m a) s = .next { s with inReady := true, hold := .waitIn, inStream := rest })) ∧
  ∀ (s : State) (m : BitVec 1), s.errcode.toNat ≤ 4 → s.status = .run → s.hold = .waitIn → InData s.cfg s.opd →
    step s = exec (.read m s.opd) s

/-- R70: with out_ready high the data word is appended to the output in one step; an invalid address emits nothing. -/
def Obligations.WriteEmitsTheDataWord : Prop :=
  ∀ (s : State) (m : BitVec 1) (a : Addr),
    (InData s.cfg a → s.outReady = true → exec (.write m a) s = .next { s with
      outData := s.memRead a, outValid := false, hold := .noHold, outLog := s.outLog ++ [s.memRead a] }) ∧
    (¬ InData s.cfg a → exec (.write m a) s = .next { s with status := .faulted, errcode := 2 })

/-- R69: with out_ready low the WRITE presents its word, out_valid high, and holds; the held core waits, and appends the
word in the step that finds out_ready high. -/
def Obligations.WriteHoldsUntilTaken : Prop :=
  (∀ (s : State) (m : BitVec 1) (a : Addr), InData s.cfg a → s.outReady = false →
    exec (.write m a) s = .next { s with outData := s.memRead a, outValid := true, hold := .waitOut }) ∧
  ∀ s : State, s.errcode.toNat ≤ 4 → s.status = .run → s.hold = .waitOut →
    (s.outReady = false → step s = .next { s with outValid := true }) ∧
    (s.outReady = true → step s = .next { s with
      outValid := false, hold := .noHold, outLog := s.outLog ++ [s.outData] })

/-- R73; the sum of the signed readings wraps, and does not depend on signedness. -/
def Obligations.AddWrapsTheSignedSum : Prop :=
  ∀ (s : State) (v : Operand),
    (∀ w, ResolvesTo s v w → exec (.add v) s = .next { s with acc := BitVec.ofInt 16 (s.acc.toInt + w.toInt) } ∧
      (BitVec.ofInt 16 (s.acc.toInt + w.toInt)).toNat = (s.acc.toNat + w.toNat) % 65536) ∧
    (ResolveFails s v → exec (.add v) s = .next { s with status := .faulted, errcode := 2 })

/-- R74. -/
def Obligations.SubWrapsTheSignedDifference : Prop :=
  ∀ (s : State) (v : Operand),
    (∀ w, ResolvesTo s v w → exec (.sub v) s = .next { s with acc := BitVec.ofInt 16 (s.acc.toInt - w.toInt) } ∧
      BitVec.ofInt 16 (s.acc.toInt - w.toInt) = s.acc - w) ∧
    (ResolveFails s v → exec (.sub v) s = .next { s with status := .faulted, errcode := 2 })

/-- R75; the low 16 bits of the exact product, which do not depend on signedness. -/
def Obligations.MulKeepsTheLowHalf : Prop :=
  ∀ (s : State) (v : Operand),
    (∀ w, ResolvesTo s v w → exec (.mul v) s = .next { s with acc := BitVec.ofInt 16 (s.acc.toInt * w.toInt) } ∧
      (BitVec.ofInt 16 (s.acc.toInt * w.toInt)).toNat = s.acc.toNat * w.toNat % 65536) ∧
    (ResolveFails s v → exec (.mul v) s = .next { s with status := .faulted, errcode := 2 })

/-- R76: the quotient rounded toward zero; -32768 / -1 wraps to 0x8000 and is the only quotient that wraps. -/
def Obligations.DivTruncatesTowardZero : Prop :=
  ∀ (s : State) (v : Operand),
    (∀ w, ResolvesTo s v w → w ≠ 0 →
      ∃ q, exec (.div v) s = .next { s with acc := q } ∧
        (s.acc = 0x8000 ∧ w = 0xFFFF → q = 0x8000) ∧
        (¬ (s.acc = 0x8000 ∧ w = 0xFFFF) → q.toInt = s.acc.toInt.tdiv w.toInt)) ∧
    (∀ w, ResolvesTo s v w → w = 0 → exec (.div v) s = .next { s with status := .faulted, errcode := 3 }) ∧
    (ResolveFails s v → exec (.div v) s = .next { s with status := .faulted, errcode := 2 })

/-- R77: the remainder of the truncated quotient: smaller than the divisor, zero or of the dividend's sign; with DIV it
satisfies a = q*b + r exactly but for -32768 and -1, and modulo 2^16 always (95_test_vectors.md). -/
def Obligations.ModTakesTheDividendsSign : Prop :=
  ∀ (s : State) (v : Operand),
    (∀ w, ResolvesTo s v w → w ≠ 0 →
      ∃ q r, exec (.div v) s = .next { s with acc := q } ∧ exec (.mod v) s = .next { s with acc := r } ∧
        r.toInt = s.acc.toInt - w.toInt * s.acc.toInt.tdiv w.toInt ∧
        |r.toInt| < |w.toInt| ∧ (0 ≤ s.acc.toInt → 0 ≤ r.toInt) ∧ (s.acc.toInt ≤ 0 → r.toInt ≤ 0) ∧
        (¬ (s.acc = 0x8000 ∧ w = 0xFFFF) → s.acc.toInt = q.toInt * w.toInt + r.toInt) ∧ s.acc = q * w + r) ∧
    (∀ w, ResolvesTo s v w → w = 0 → exec (.mod v) s = .next { s with status := .faulted, errcode := 3 }) ∧
    (ResolveFails s v → exec (.mod v) s = .next { s with status := .faulted, errcode := 2 })

/-- R90: the zero divisor is DivisionByZero for DIV and MOD, as an immediate and from memory, ACC unchanged. -/
def Obligations.ZeroDivisorFaults : Prop :=
  ∀ s : State,
    (exec (.div (.imm 0)) s = .next { s with status := .faulted, errcode := 3 } ∧
      exec (.mod (.imm 0)) s = .next { s with status := .faulted, errcode := 3 }) ∧
    ∀ a : Addr, InData s.cfg a → s.memRead a = 0 →
      exec (.div (.mem a)) s = .next { s with status := .faulted, errcode := 3 } ∧
      exec (.mod (.mem a)) s = .next { s with status := .faulted, errcode := 3 }

/-- R78: the complement, which is -x - 1 and not -x, without a look at M, OPD or memory; twice it restores ACC. -/
def Obligations.NegComplementsTheAccumulator : Prop :=
  ∀ (s : State) (m : BitVec 1) (x : BitVec 11),
    exec (.neg m x) s = .next { s with acc := s.acc ^^^ 0xFFFF } ∧
    s.acc ^^^ 0xFFFF = BitVec.ofInt 16 (-s.acc.toInt - 1) ∧ (s.acc ^^^ 0xFFFF) ^^^ 0xFFFF = s.acc

/-- R79: NOP changes nothing in Execute, and a step of it only what Fetch and Decode write: PC advances by one. -/
def Obligations.NopChangesNothing : Prop :=
  ∀ (s : State) (m : BitVec 1) (x : BitVec 11),
    exec (.nop m x) s = .next s ∧
    (s.errcode.toNat ≤ 4 → s.status = .run → s.hold = .noHold → s.pc.toNat ≤ 1023 →
      decode s.cfg.opcodeMap (s.memRead s.pc) = .ok (.nop m x) →
      step s = .next { s with
        ir := s.memRead s.pc
        pc := s.pc + 1
        op := (s.memRead s.pc).extractLsb' 12 4
        m := (s.memRead s.pc).extractLsb' 11 1
        opd := (s.memRead s.pc).extractLsb' 0 11 })

/-- R80: the absolute target, not validated; a target ≥ 1024 is taken, and the next step's guard raises
InvalidAddress. -/
def Obligations.JumpSetsPc : Prop :=
  ∀ (s : State) (m : BitVec 1) (t : Addr),
    exec (.jump m t) s = .next { s with pc := t } ∧
    (s.errcode.toNat ≤ 4 → s.status = .run → s.hold = .noHold → 1024 ≤ t.toNat →
      step { s with pc := t } = .next { s with pc := t, status := .faulted, errcode := 2 })

/-- R81: taken when ACC is negative, that is when bit 15 is set; else PC stays. -/
def Obligations.JnegJumpsWhenNegative : Prop :=
  ∀ (s : State) (m : BitVec 1) (t : Addr),
    (s.acc.toInt < 0 ↔ s.acc.getLsbD 15 = true) ∧
    (s.acc.toInt < 0 → exec (.jneg m t) s = .next { s with pc := t }) ∧
    (0 ≤ s.acc.toInt → exec (.jneg m t) s = .next s)

/-- R82: taken when ACC is zero; else PC stays. -/
def Obligations.JzeroJumpsWhenZero : Prop :=
  ∀ (s : State) (m : BitVec 1) (t : Addr),
    (s.acc = 0 → exec (.jzero m t) s = .next { s with pc := t }) ∧ (s.acc ≠ 0 → exec (.jzero m t) s = .next s)

/-- R84, R85: EOC and HALT set STATUS to HALTED and change nothing else. -/
def Obligations.TerminalInstructionsHalt : Prop :=
  ∀ (s : State) (m : BitVec 1) (x : BitVec 11),
    exec (.eoc m x) s = .next { s with status := .halted } ∧ exec (.halt m x) s = .next { s with status := .halted }

/-- R48, R51: where a field is ignored, any value of it gives the same effect. -/
def Obligations.IgnoredFieldsDoNotMatter : Prop :=
  ∀ (s : State) (m m' : BitVec 1) (x y : BitVec 11),
    exec (.store m x) s = exec (.store m' x) s ∧ exec (.read m x) s = exec (.read m' x) s ∧
    exec (.write m x) s = exec (.write m' x) s ∧ exec (.jump m x) s = exec (.jump m' x) s ∧
    exec (.jneg m x) s = exec (.jneg m' x) s ∧ exec (.jzero m x) s = exec (.jzero m' x) s ∧
    exec (.neg m x) s = exec (.neg m' y) s ∧ exec (.nop m x) s = exec (.nop m' y) s ∧
    exec (.eoc m x) s = exec (.eoc m' y) s ∧ exec (.halt m x) s = exec (.halt m' y) s

/-! ## Rules about the whole machine -/

/-- The invariant holds at reset. -/
def Obligations.ResetMeetsTheInvariant : Prop := State.reset.Inv

/-- Every step keeps the invariant: canonical memory, ERRCODE non-zero exactly when FAULTED and never reserved (R22), OP, M
and OPD the fields of IR (R18), a hold only in RUN and only of a READ or WRITE with a valid address, and the rest. -/
def Obligations.StepKeepsTheInvariant : Prop :=
  ∀ s t : State, s.Inv → step s = .next t → t.Inv

/-- Every port keeps the invariant, and the boot ends in it. -/
def Obligations.PortsKeepTheInvariant : Prop :=
  ∀ s : State, s.Inv →
    (assertReset s).Inv ∧ (start s).Inv ∧ (∀ a w, (loadPort a w s).Inv) ∧ (∀ p, (driveInput p s).Inv) ∧
    (∀ b, (driveOutReady b s).Inv) ∧ ∀ stream, (boot stream s).state.Inv

/-- R63: a step writes ACC or memory or the output, at most one of them. It leaves memory and the output, or the instruction
in IR is a STORE, READ or WRITE of a valid data address, which is OPD, and ACC stays: a STORE or READ changes no word but
that one, and a WRITE appends that word and changes no memory. For a step of a held READ or WRITE, OPD is the address it
waits with (the invariant; log entry 8). -/
def Obligations.StepWritesOneOfAccMemOutput : Prop :=
  ∀ s t : State, s.Inv → step s = .next t →
    (t.mem = s.mem ∧ t.outLog = s.outLog) ∨
    ∃ i, decode s.cfg.opcodeMap t.ir = .ok i ∧ i.dataAddr? = some t.opd ∧ InData s.cfg t.opd ∧ t.acc = s.acc ∧
      (((i.mnemonic = .store ∨ i.mnemonic = .read) ∧ t.outLog = s.outLog ∧
          (i.mnemonic = .store → t.memRead t.opd = s.acc) ∧
          ∀ b : Addr, b ≠ t.opd → t.memRead b = s.memRead b) ∨
        (i.mnemonic = .write ∧ t.mem = s.mem ∧ t.outLog = s.outLog ++ [s.memRead t.opd]))

/-- R94, R71: a step that faults leaves ACC, memory and the output log; a fault of the guard leaves every register, any
other leaves PC at the instruction's address + 1 and the instruction in IR, OP, M and OPD. The clause on the input stream
rests on log entry 9 (a shown end is not consumed), with R67 and R68; the clause on a held core on log entry 8. -/
def Obligations.FaultsArePrecise : Prop :=
  ∀ s t : State, step s = .next t → s.status = .run → t.status = .faulted →
    t.acc = s.acc ∧ t.mem = s.mem ∧ t.outLog = s.outLog ∧ t.inStream = s.inStream ∧
    (s.hold = .noHold → 1024 ≤ s.pc.toNat →
      t.pc = s.pc ∧ t.ir = s.ir ∧ t.op = s.op ∧ t.m = s.m ∧ t.opd = s.opd) ∧
    (s.hold = .noHold → s.pc.toNat ≤ 1023 →
      t.pc = s.pc + 1 ∧ t.ir = s.memRead s.pc ∧ t.op = (s.memRead s.pc).extractLsb' 12 4 ∧
      t.m = (s.memRead s.pc).extractLsb' 11 1 ∧ t.opd = (s.memRead s.pc).extractLsb' 0 11) ∧
    (s.hold ≠ .noHold → t.pc = s.pc ∧ t.ir = s.ir ∧ t.op = s.op ∧ t.m = s.m ∧ t.opd = s.opd)

/-- R87, R89: the frozen state identifies the error: the faulting fetch address is PC, a faulting data address is OPD, and
ERRCODE gives the rest. That `faultReason` reads the kind of an InvalidAddress back from IR is the model's inference (log
entry 11). -/
def Obligations.FrozenStateIdentifiesTheError : Prop :=
  ∀ s t : State, s.Inv → s.status = .run → step s = .next t → t.status = .faulted →
    (s.hold = .noHold ∧ 1024 ≤ s.pc.toNat ∧ faultReason t = some (.invalidAddress .fetch s.pc)) ∨
    ((s.hold = .noHold → s.pc.toNat ≤ 1023) ∧ ∃ i, decode s.cfg.opcodeMap t.ir = .ok i ∧
      ((∃ a, i.dataAddr? = some a ∧ ¬ InData s.cfg a ∧ faultReason t = some (.invalidAddress .data a)) ∨
       ((i.mnemonic = .div ∨ i.mnemonic = .mod) ∧ faultReason t = some .divisionByZero) ∨
       (i.mnemonic = .read ∧ faultReason t = some .inputError)))

/-- R21: a step changes STATUS only from RUN, to HALTED exactly at a terminal OP, or to FAULTED. -/
def Obligations.StatusChangesOnlyFromRun : Prop :=
  ∀ s t : State, step s = .next t →
    (s.status ≠ .run → t.status = s.status) ∧
    (s.status = .run → t.status ≠ .idle ∧
      (t.status = .halted ↔ s.hold = .noHold ∧ s.pc.toNat ≤ 1023 ∧
        ((s.memRead s.pc).toNat / 4096 = 0 ∨ (s.memRead s.pc).toNat / 4096 = 15)))

/-- R15, R16: PC changes only when a running core that does not hold passes the guard: then a taken jump, whose test holds,
sets it to its operand, and any other word advances it by one, to at most 1024 and without a wrap. -/
def Obligations.PcChangesOnlyByFetchAndJumps : Prop :=
  ∀ s t : State, step s = .next t →
    (¬ (s.status = .run ∧ s.hold = .noHold ∧ s.pc.toNat ≤ 1023) → t.pc = s.pc) ∧
    (s.status = .run → s.hold = .noHold → s.pc.toNat ≤ 1023 →
      (∃ i, decode s.cfg.opcodeMap (s.memRead s.pc) = .ok i ∧ JumpTaken i s ∧ t.pc = i.opd) ∨
      ((∀ i, decode s.cfg.opcodeMap (s.memRead s.pc) = .ok i → ¬ JumpTaken i s) ∧ t.pc.toNat = s.pc.toNat + 1))

/-- R69 over a run: the output log is only ever appended to. -/
def Obligations.OutputIsAppendOnly : Prop :=
  ∀ s t : State, Reaches s t → ∃ emitted : List Word, t.outLog = s.outLog ++ emitted

/-! ## Reset, load and debug -/

/-- R29: the machine after reset. -/
def Obligations.ResetValues : Prop :=
  State.reset.acc = 0 ∧ State.reset.pc = 0 ∧ State.reset.ir = 0 ∧ State.reset.op = 0 ∧ State.reset.opd = 0 ∧
  State.reset.m = 0 ∧ State.reset.status = .idle ∧ State.reset.errcode = 0 ∧ ∀ a : Addr, State.reset.memRead a = 0

/-- R105: `rst` in any state, HALTED and FAULTED included. -/
def Obligations.RstSetsTheRegisters : Prop :=
  ∀ s : State, (assertReset s).acc = 0 ∧ (assertReset s).pc = 0 ∧ (assertReset s).ir = 0 ∧ (assertReset s).op = 0 ∧
    (assertReset s).m = 0 ∧ (assertReset s).opd = 0 ∧ (assertReset s).status = .idle ∧ (assertReset s).errcode = 0 ∧
    (assertReset s).inReady = false ∧ (assertReset s).outValid = false

/-- R28: the load port writes one word while IDLE, and nothing in any other state. -/
def Obligations.LoadPortWritesOnlyWhileIdle : Prop :=
  ∀ (s : State) (a b : Addr) (w : Word), s.mem.wf = true →
    (s.status = .idle → loadPort a w s = { s with mem := (loadPort a w s).mem } ∧
      (loadPort a w s).memRead b = if b = a then w else s.memRead b) ∧
    (s.status ≠ .idle → loadPort a w s = s)

/-- R107: start acts only while IDLE and checks nothing; a core started without a load halts at once on the 0x0000 at
address 0, which is there because State.reset is clear (log entry 2). -/
def Obligations.StartActsOnlyWhileIdle : Prop :=
  (∀ s : State, (s.status = .idle → start s = { s with status := .run }) ∧ (s.status ≠ .idle → start s = s)) ∧
  step (start State.reset) = .next { State.reset with pc := 1, status := .halted }

/-- Writing 0x0000 to all 2048 words through the load port is the clearing of the boot order (R106 step 2). -/
def Obligations.ClearingThroughTheLoadPort : Prop :=
  ∀ s : State, s.mem.wf = true → s.status = .idle → loadWords 0 (List.replicate memWords 0) s = clearMemory s

/-- R109: words are copied in order up to the first 0x0000, which is stored too, or to the end of the stream, which is no
error; a malformed token met before that is an InputError (R111). -/
def Obligations.LoaderCopiesUpToTheTerminator : Prop :=
  ∀ (ws : List Word) (rest : List Token), (∀ w ∈ ws, w ≠ 0) →
    (ws.length ≤ 1024 → copyProgram 1024 (ws.map .word) = ⟨ws, .ok []⟩) ∧
    (ws.length ≤ 1023 → copyProgram 1024 (ws.map .word ++ .word 0 :: rest) = ⟨ws ++ [0], .ok rest⟩) ∧
    (ws.length ≤ 1024 → copyProgram 1024 (ws.map .word ++ .malformed :: rest) = ⟨ws, .error .inputError⟩)

/-- R108: with n words to be loaded, the terminator counted if there is one, the load succeeds exactly when 2 ≤ n ≤ 1024,
and else is a LoadError. -/
def Obligations.ProgramSizeIsChecked : Prop :=
  ∀ (s : State) (ws : List Word) (rest : List Token), (∀ w ∈ ws, w ≠ 0) →
    (boot (ws.map .word) s).failure = (if 2 ≤ ws.length ∧ ws.length ≤ 1024 then none else some .loadError) ∧
    (boot (ws.map .word ++ .word 0 :: rest) s).failure =
      (if 2 ≤ ws.length + 1 ∧ ws.length + 1 ≤ 1024 then none else some .loadError)

/-- R112: the start state of a run. -/
def Obligations.StartStateOfARun : Prop :=
  ∀ (s : State) (stream : List Token), (boot stream s).failure = none →
    ∃ ws : List Word, ws = (copyProgram 1024 stream).words ∧ 2 ≤ ws.length ∧ ws.length ≤ 1024 ∧
      ∃ t, t = (boot stream s).state ∧ t.status = .run ∧ t.errcode = 0 ∧ t.acc = 0 ∧ t.pc = 0 ∧ t.ir = 0 ∧ t.op = 0 ∧
        t.m = 0 ∧ t.opd = 0 ∧ t.outLog = [] ∧
        ∀ a : Addr, t.memRead a = ws.getD a.toNat 0

/-- R110: in every state of a run after a boot, the looks still to come are a suffix of the tokens after the program, in
order, then `end`, then whatever the host offers after it; and when the load ended at the end of the stream, every READ of
that run, of a valid address, is an InputError, whether it is executed or is a whole step. The list of looks is the model's
form of the host's side (log entry 9), and that the host shows each token at the first look its choice (log entry 20). -/
def Obligations.InputFollowsTheProgram : Prop :=
  ∀ (s : State) (stream rest : List Token), (boot stream s).failure = none →
    (copyProgram 1024 stream).rest = .ok rest →
    (boot stream s).state.inStream = rest.map tokenPins ++ [endPins] ∧
    ∀ t, Reaches (boot stream s).state t →
      (∃ (k : Nat) (offered : List InPins), t.inStream = (rest.drop k).map tokenPins ++ endPins :: offered) ∧
      (rest = [] → t.status = .run → ∀ (m : BitVec 1) (a : Addr), InData t.cfg a →
        exec (.read m a) t = .next { t with inReady := true, hold := .noHold, status := .faulted, errcode := 4 } ∧
        (t.hold = .noHold → t.pc.toNat ≤ 1023 → decode t.cfg.opcodeMap (t.memRead t.pc) = .ok (.read m a) →
          ∃ u, step t = .next u ∧ u.status = .faulted ∧ u.errcode = 4))

/-- R113: after a failed load STATUS is IDLE and ERRCODE is NONE. -/
def Obligations.FailedLoadStaysIdle : Prop :=
  ∀ (s : State) (stream : List Token), (boot stream s).failure ≠ none →
    (boot stream s).state.status = .idle ∧ (boot stream s).state.errcode = 0

/-- R102: the debug port exposes every register and every word: canonical states that look alike on it agree in all the
state of R13. -/
def Obligations.DebugPortShowsEverything : Prop :=
  ∀ s t : State, s.mem.wf = true → t.mem.wf = true → (∀ a : Addr, debugRead a s = debugRead a t) →
    s.mem = t.mem ∧ s.acc = t.acc ∧ s.pc = t.pc ∧ s.ir = t.ir ∧ s.op = t.op ∧ s.m = t.m ∧ s.opd = t.opd ∧
    s.status = t.status ∧ s.errcode = t.errcode

/-- R21, R22, R27: the status port drives STATUS in the encoding of R21, with ERRCODE, and the debug port shows the same; in
every state of the invariant errcode is non-zero exactly in FAULTED, and HALTED drives `status = 2` and `errcode = 0`
(R86). -/
def Obligations.StatusPortDrivesTheCodes : Prop :=
  (∀ s : State,
    (s.status = .idle → (readStatus s).status = 0) ∧ (s.status = .run → (readStatus s).status = 1) ∧
    (s.status = .halted → (readStatus s).status = 2) ∧ (s.status = .faulted → (readStatus s).status = 3) ∧
    (readStatus s).errcode = s.errcode ∧
    ∀ a : Addr, (debugRead a s).status = (readStatus s).status ∧ (debugRead a s).errcode = s.errcode) ∧
  ∀ s : State, s.Inv →
    ((readStatus s).errcode ≠ 0 ↔ (readStatus s).status = 3) ∧
    (s.status = .halted → readStatus s = { status := 2, errcode := 0 })
end

