-- ==== Sys2Proof/Laws/Decode.lean ====
section
/-! SUPPORT. Fields, the opcode map and the decoder: one lemma per function. -/

namespace Sys2Proof

@[simp] theorem opField_joinFields (op : BitVec 4) (m : BitVec 1) (opd : BitVec 11) :
    opField (joinFields op m opd) = op := by
  unfold opField joinFields
  ext i hi
  simp only [BitVec.getElem_extractLsb', BitVec.getLsbD_append]
  have : ¬ 12 + i < 11 := by omega
  have h2 : ¬ 12 + i - 11 < 1 := by omega
  simp [this, h2, show 12 + i - 11 - 1 = i by omega, BitVec.getLsbD_eq_getElem hi]

@[simp] theorem mField_joinFields (op : BitVec 4) (m : BitVec 1) (opd : BitVec 11) :
    mField (joinFields op m opd) = m := by
  unfold mField joinFields
  ext i hi
  obtain rfl : i = 0 := by omega
  simp only [BitVec.getElem_extractLsb', BitVec.getLsbD_append]
  simp

@[simp] theorem opdField_joinFields (op : BitVec 4) (m : BitVec 1) (opd : BitVec 11) :
    opdField (joinFields op m opd) = opd := by
  unfold opdField joinFields
  ext i hi
  simp only [BitVec.getElem_extractLsb', BitVec.getLsbD_append]
  simp [hi]

/-- A word is its three fields (R45). -/
theorem joinFields_fields (w : Word) : joinFields (opField w) (mField w) (opdField w) = w := by
  unfold opField mField opdField joinFields
  ext i hi
  simp only [BitVec.getElem_append, BitVec.getElem_extractLsb']
  split_ifs with h1 h2
  · simp [BitVec.getLsbD_eq_getElem hi]
  · simp [show 11 + (i - 11) = i by omega, BitVec.getLsbD_eq_getElem hi]
  · simp [show 12 + (i - 11 - 1) = i by omega, BitVec.getLsbD_eq_getElem hi]

theorem operand_ofFields_self (v : Operand) : Operand.ofFields v.mBit v.opd = v := by
  cases v <;> rfl

theorem operand_mBit_ofFields (m : BitVec 1) (x : BitVec 11) : (Operand.ofFields m x).mBit = m := by
  unfold Operand.ofFields
  split_ifs with h
  · exact h.symm
  · have : m = 0 := by
      have := m.isLt
      apply BitVec.eq_of_toNat_eq
      have h' : m.toNat ≠ 1 := fun hc => h (BitVec.eq_of_toNat_eq hc)
      simp only [BitVec.ofNat_eq_ofNat, BitVec.toNat_ofNat]
      omega
    exact this.symm

theorem operand_opd_ofFields (m : BitVec 1) (x : BitVec 11) : (Operand.ofFields m x).opd = x := by
  unfold Operand.ofFields
  split_ifs <;> rfl

theorem instr_ofFields_self (i : Instr) : Instr.ofFields i.mnemonic i.mBit i.opd = i := by
  cases i <;> simp [Instr.ofFields, Instr.mnemonic, Instr.mBit, Instr.opd, operand_ofFields_self]

theorem instr_mnemonic_ofFields (n : Mnemonic) (m : BitVec 1) (x : BitVec 11) :
    (Instr.ofFields n m x).mnemonic = n := by cases n <;> rfl

theorem instr_mBit_ofFields (n : Mnemonic) (m : BitVec 1) (x : BitVec 11) : (Instr.ofFields n m x).mBit = m := by
  cases n <;> first | rfl | exact operand_mBit_ofFields m x

theorem instr_opd_ofFields (n : Mnemonic) (m : BitVec 1) (x : BitVec 11) : (Instr.ofFields n m x).opd = x := by
  cases n <;> first | rfl | exact operand_opd_ofFields m x

/-- The number of the row the map finds is the number looked up. -/
theorem number_of_lookup {k : OpcodeMap} {op : BitVec 4} {n : Mnemonic} (h : k.lookup op = some n) :
    k.number n = op := by
  unfold OpcodeMap.lookup at h
  split_ifs at h with h0 h15 h1
  · cases h; exact h0.symm
  · cases h; exact h15.symm
  · cases h; exact h1.symm
  · simpa using List.find?_some h

/-- What the decoder answers with: an instruction whose fields are the word's, under the number the word has. -/
theorem decode_ok {k : OpcodeMap} {w : Word} {i : Instr} (h : decode k w = .ok i) :
    k.lookup (opField w) = some i.mnemonic ∧ i.mBit = mField w ∧ i.opd = opdField w := by
  unfold decode at h
  split at h
  · rename_i n hn
    cases h
    exact ⟨by rw [instr_mnemonic_ofFields, hn], instr_mBit_ofFields .., instr_opd_ofFields ..⟩
  · cases h

/-- What a rejection names: the word's OP, which has no row. -/
theorem decode_error {k : OpcodeMap} {w : Word} {r : Rejected} (h : decode k w = .error r) :
    k.lookup (opField w) = none ∧ r = .noRow (opField w) := by
  unfold decode at h
  split at h
  · cases h
  · rename_i hn
    cases h
    exact ⟨hn, rfl⟩

/-- OP = 0 selects EOC and OP = 15 selects HALT under every map, and nothing else selects them (R59). -/
theorem lookup_terminal {k : OpcodeMap} {op : BitVec 4} :
    (k.lookup op = some .eoc ↔ op = 0) ∧ (k.lookup op = some .halt ↔ op = 15) := by
  unfold OpcodeMap.lookup
  have hmem : ∀ n, Mnemonic.mapped.find? (fun n => k.number n == op) = some n → n ≠ .eoc ∧ n ≠ .halt := by
    intro n hn
    have := List.mem_of_find?_eq_some hn
    simp only [Mnemonic.mapped, List.mem_cons, List.not_mem_nil, or_false] at this
    rcases this with h | h | h | h | h | h | h | h | h | h | h | h | h <;> subst h <;> simp
  split_ifs with h0 h15 h1
  · subst h0; simp
  · subst h15; simp
  · subst h1; simp
  · constructor
    · exact ⟨fun h => absurd rfl (hmem _ h).1, fun h => absurd h h0⟩
    · exact ⟨fun h => absurd rfl (hmem _ h).2, fun h => absurd h h15⟩

/-- Among instructions with distinct numbers, the search by number finds the instruction. -/
theorem find_number (k : OpcodeMap) : ∀ l : List Mnemonic, (l.map k.number).Nodup → ∀ n ∈ l,
    l.find? (fun x => k.number x == k.number n) = some n := by
  intro l
  induction l with
  | nil => intro _ n hn; cases hn
  | cons x r ih =>
    intro hnd n hn
    simp only [List.map_cons, List.nodup_cons] at hnd
    rw [List.find?_cons]
    rcases List.mem_cons.mp hn with h | h
    · subst h; simp
    · have hx : (k.number x == k.number n) = false := by
        rw [beq_eq_false_iff_ne]
        intro hc; apply hnd.1; rw [hc]; exact List.mem_map_of_mem h
      rw [hx]
      exact ih hnd.2 n h

/-- Under a map of R49 the number of an instruction selects it. -/
theorem lookup_number (k : OpcodeMap) (hk : k.wf = true) (n : Mnemonic) : k.lookup (k.number n) = some n := by
  have hnd : (0 :: 1 :: (Mnemonic.mapped.map k.number ++ [15])).Nodup := of_decide_eq_true hk
  have hnd' := hnd
  rw [List.nodup_cons, List.nodup_cons, List.nodup_append] at hnd'
  obtain ⟨h0, h1, hm, -, h15⟩ := hnd'
  by_cases hmem : n ∈ Mnemonic.mapped
  · have hin : k.number n ∈ Mnemonic.mapped.map k.number := List.mem_map_of_mem hmem
    have a : k.number n ≠ 0 := fun hc => h0 (by rw [← hc]; exact List.mem_cons_of_mem _ (List.mem_append_left _ hin))
    have b : k.number n ≠ 1 := fun hc => h1 (by rw [← hc]; exact List.mem_append_left _ hin)
    have c : k.number n ≠ 15 := h15 _ hin _ List.mem_cons_self
    unfold OpcodeMap.lookup
    rw [if_neg a, if_neg c, if_neg b]
    exact find_number k _ hm n hmem
  · cases n <;> first | rfl | exact absurd (by decide) hmem

/-- Under a map of R49 every OP has a row (R50): sixteen distinct numbers of four bits are all of them. -/
theorem lookup_total (k : OpcodeMap) (hk : k.wf = true) (op : BitVec 4) : ∃ n, k.lookup op = some n := by
  have hnd : k.numbers.Nodup := by simpa [OpcodeMap.wf] using hk
  have hl : (k.numbers.map BitVec.toNat).Nodup := hnd.map (fun a b h => BitVec.eq_of_toNat_eq h)
  have hsub : (k.numbers.map BitVec.toNat) ⊆ List.range 16 := by
    intro x hx
    simp only [List.mem_map] at hx
    obtain ⟨a, -, rfl⟩ := hx
    exact List.mem_range.mpr a.isLt
  have hperm := (List.subperm_of_subset hl hsub).perm_of_length_le (by simp [OpcodeMap.numbers])
  have : op.toNat ∈ k.numbers.map BitVec.toNat := hperm.mem_iff.mpr (List.mem_range.mpr op.isLt)
  simp only [List.mem_map] at this
  obtain ⟨a, ha, hop⟩ := this
  have : a = op := BitVec.eq_of_toNat_eq hop
  subst this
  have : ∃ n, k.number n = a := by
    simp only [OpcodeMap.numbers, List.mem_cons, List.not_mem_nil, or_false] at ha
    rcases ha with h | h | h | h | h | h | h | h | h | h | h | h | h | h | h | h <;> subst h
    exacts [⟨.eoc, rfl⟩, ⟨.load, rfl⟩, ⟨.store, rfl⟩, ⟨.read, rfl⟩, ⟨.write, rfl⟩, ⟨.add, rfl⟩, ⟨.sub, rfl⟩,
      ⟨.mul, rfl⟩, ⟨.div, rfl⟩, ⟨.mod, rfl⟩, ⟨.neg, rfl⟩, ⟨.nop, rfl⟩,
      ⟨.jump, rfl⟩, ⟨.jneg, rfl⟩, ⟨.jzero, rfl⟩, ⟨.halt, rfl⟩]
  obtain ⟨n, hn⟩ := this
  exact ⟨n, by rw [← hn]; exact lookup_number k hk n⟩

end Sys2Proof
end

