-- ==== Sys2Proof/Laws/State.lean ====
section
/-! SUPPORT. One lemma per field per update of the state, so that no later proof unfolds a record update. -/

namespace Sys2Proof.Machine

/-! ## setAcc -/

@[simp] theorem setAcc_cfg (s : State) (v : Word) : (s.setAcc v).cfg = s.cfg := rfl
@[simp] theorem setAcc_mem (s : State) (v : Word) : (s.setAcc v).mem = s.mem := rfl
@[simp] theorem setAcc_acc (s : State) (v : Word) : (s.setAcc v).acc = v := rfl
@[simp] theorem setAcc_pc (s : State) (v : Word) : (s.setAcc v).pc = s.pc := rfl
@[simp] theorem setAcc_ir (s : State) (v : Word) : (s.setAcc v).ir = s.ir := rfl
@[simp] theorem setAcc_op (s : State) (v : Word) : (s.setAcc v).op = s.op := rfl
@[simp] theorem setAcc_m (s : State) (v : Word) : (s.setAcc v).m = s.m := rfl
@[simp] theorem setAcc_opd (s : State) (v : Word) : (s.setAcc v).opd = s.opd := rfl
@[simp] theorem setAcc_status (s : State) (v : Word) : (s.setAcc v).status = s.status := rfl
@[simp] theorem setAcc_errcode (s : State) (v : Word) : (s.setAcc v).errcode = s.errcode := rfl
@[simp] theorem setAcc_hold (s : State) (v : Word) : (s.setAcc v).hold = s.hold := rfl
@[simp] theorem setAcc_inReady (s : State) (v : Word) : (s.setAcc v).inReady = s.inReady := rfl
@[simp] theorem setAcc_outValid (s : State) (v : Word) : (s.setAcc v).outValid = s.outValid := rfl
@[simp] theorem setAcc_outData (s : State) (v : Word) : (s.setAcc v).outData = s.outData := rfl
@[simp] theorem setAcc_inStream (s : State) (v : Word) : (s.setAcc v).inStream = s.inStream := rfl
@[simp] theorem setAcc_outReady (s : State) (v : Word) : (s.setAcc v).outReady = s.outReady := rfl
@[simp] theorem setAcc_outLog (s : State) (v : Word) : (s.setAcc v).outLog = s.outLog := rfl

/-! ## setPc -/

@[simp] theorem setPc_cfg (s : State) (a : Addr) : (s.setPc a).cfg = s.cfg := rfl
@[simp] theorem setPc_mem (s : State) (a : Addr) : (s.setPc a).mem = s.mem := rfl
@[simp] theorem setPc_acc (s : State) (a : Addr) : (s.setPc a).acc = s.acc := rfl
@[simp] theorem setPc_pc (s : State) (a : Addr) : (s.setPc a).pc = a := rfl
@[simp] theorem setPc_ir (s : State) (a : Addr) : (s.setPc a).ir = s.ir := rfl
@[simp] theorem setPc_op (s : State) (a : Addr) : (s.setPc a).op = s.op := rfl
@[simp] theorem setPc_m (s : State) (a : Addr) : (s.setPc a).m = s.m := rfl
@[simp] theorem setPc_opd (s : State) (a : Addr) : (s.setPc a).opd = s.opd := rfl
@[simp] theorem setPc_status (s : State) (a : Addr) : (s.setPc a).status = s.status := rfl
@[simp] theorem setPc_errcode (s : State) (a : Addr) : (s.setPc a).errcode = s.errcode := rfl
@[simp] theorem setPc_hold (s : State) (a : Addr) : (s.setPc a).hold = s.hold := rfl
@[simp] theorem setPc_inReady (s : State) (a : Addr) : (s.setPc a).inReady = s.inReady := rfl
@[simp] theorem setPc_outValid (s : State) (a : Addr) : (s.setPc a).outValid = s.outValid := rfl
@[simp] theorem setPc_outData (s : State) (a : Addr) : (s.setPc a).outData = s.outData := rfl
@[simp] theorem setPc_inStream (s : State) (a : Addr) : (s.setPc a).inStream = s.inStream := rfl
@[simp] theorem setPc_outReady (s : State) (a : Addr) : (s.setPc a).outReady = s.outReady := rfl
@[simp] theorem setPc_outLog (s : State) (a : Addr) : (s.setPc a).outLog = s.outLog := rfl

/-! ## memWrite -/

@[simp] theorem memWrite_cfg (s : State) (a : Addr) (w : Word) : (s.memWrite a w).cfg = s.cfg := rfl
@[simp] theorem memWrite_mem (s : State) (a : Addr) (w : Word) : (s.memWrite a w).mem = Memory.write s.mem a.toNat w := rfl
@[simp] theorem memWrite_acc (s : State) (a : Addr) (w : Word) : (s.memWrite a w).acc = s.acc := rfl
@[simp] theorem memWrite_pc (s : State) (a : Addr) (w : Word) : (s.memWrite a w).pc = s.pc := rfl
@[simp] theorem memWrite_ir (s : State) (a : Addr) (w : Word) : (s.memWrite a w).ir = s.ir := rfl
@[simp] theorem memWrite_op (s : State) (a : Addr) (w : Word) : (s.memWrite a w).op = s.op := rfl
@[simp] theorem memWrite_m (s : State) (a : Addr) (w : Word) : (s.memWrite a w).m = s.m := rfl
@[simp] theorem memWrite_opd (s : State) (a : Addr) (w : Word) : (s.memWrite a w).opd = s.opd := rfl
@[simp] theorem memWrite_status (s : State) (a : Addr) (w : Word) : (s.memWrite a w).status = s.status := rfl
@[simp] theorem memWrite_errcode (s : State) (a : Addr) (w : Word) : (s.memWrite a w).errcode = s.errcode := rfl
@[simp] theorem memWrite_hold (s : State) (a : Addr) (w : Word) : (s.memWrite a w).hold = s.hold := rfl
@[simp] theorem memWrite_inReady (s : State) (a : Addr) (w : Word) : (s.memWrite a w).inReady = s.inReady := rfl
@[simp] theorem memWrite_outValid (s : State) (a : Addr) (w : Word) : (s.memWrite a w).outValid = s.outValid := rfl
@[simp] theorem memWrite_outData (s : State) (a : Addr) (w : Word) : (s.memWrite a w).outData = s.outData := rfl
@[simp] theorem memWrite_inStream (s : State) (a : Addr) (w : Word) : (s.memWrite a w).inStream = s.inStream := rfl
@[simp] theorem memWrite_outReady (s : State) (a : Addr) (w : Word) : (s.memWrite a w).outReady = s.outReady := rfl
@[simp] theorem memWrite_outLog (s : State) (a : Addr) (w : Word) : (s.memWrite a w).outLog = s.outLog := rfl

/-! ## raise -/

@[simp] theorem raise_cfg (s : State) (e : Fault) : (raise e s).cfg = s.cfg := rfl
@[simp] theorem raise_mem (s : State) (e : Fault) : (raise e s).mem = s.mem := rfl
@[simp] theorem raise_acc (s : State) (e : Fault) : (raise e s).acc = s.acc := rfl
@[simp] theorem raise_pc (s : State) (e : Fault) : (raise e s).pc = s.pc := rfl
@[simp] theorem raise_ir (s : State) (e : Fault) : (raise e s).ir = s.ir := rfl
@[simp] theorem raise_op (s : State) (e : Fault) : (raise e s).op = s.op := rfl
@[simp] theorem raise_m (s : State) (e : Fault) : (raise e s).m = s.m := rfl
@[simp] theorem raise_opd (s : State) (e : Fault) : (raise e s).opd = s.opd := rfl
@[simp] theorem raise_status (s : State) (e : Fault) : (raise e s).status = .faulted := rfl
@[simp] theorem raise_errcode (s : State) (e : Fault) : (raise e s).errcode = errCode e := rfl
@[simp] theorem raise_hold (s : State) (e : Fault) : (raise e s).hold = s.hold := rfl
@[simp] theorem raise_inReady (s : State) (e : Fault) : (raise e s).inReady = s.inReady := rfl
@[simp] theorem raise_outValid (s : State) (e : Fault) : (raise e s).outValid = s.outValid := rfl
@[simp] theorem raise_outData (s : State) (e : Fault) : (raise e s).outData = s.outData := rfl
@[simp] theorem raise_inStream (s : State) (e : Fault) : (raise e s).inStream = s.inStream := rfl
@[simp] theorem raise_outReady (s : State) (e : Fault) : (raise e s).outReady = s.outReady := rfl
@[simp] theorem raise_outLog (s : State) (e : Fault) : (raise e s).outLog = s.outLog := rfl

/-! ## stop -/

@[simp] theorem stop_cfg (s : State) : (stop s).cfg = s.cfg := rfl
@[simp] theorem stop_mem (s : State) : (stop s).mem = s.mem := rfl
@[simp] theorem stop_acc (s : State) : (stop s).acc = s.acc := rfl
@[simp] theorem stop_pc (s : State) : (stop s).pc = s.pc := rfl
@[simp] theorem stop_ir (s : State) : (stop s).ir = s.ir := rfl
@[simp] theorem stop_op (s : State) : (stop s).op = s.op := rfl
@[simp] theorem stop_m (s : State) : (stop s).m = s.m := rfl
@[simp] theorem stop_opd (s : State) : (stop s).opd = s.opd := rfl
@[simp] theorem stop_status (s : State) : (stop s).status = .halted := rfl
@[simp] theorem stop_errcode (s : State) : (stop s).errcode = s.errcode := rfl
@[simp] theorem stop_hold (s : State) : (stop s).hold = s.hold := rfl
@[simp] theorem stop_inReady (s : State) : (stop s).inReady = s.inReady := rfl
@[simp] theorem stop_outValid (s : State) : (stop s).outValid = s.outValid := rfl
@[simp] theorem stop_outData (s : State) : (stop s).outData = s.outData := rfl
@[simp] theorem stop_inStream (s : State) : (stop s).inStream = s.inStream := rfl
@[simp] theorem stop_outReady (s : State) : (stop s).outReady = s.outReady := rfl
@[simp] theorem stop_outLog (s : State) : (stop s).outLog = s.outLog := rfl

/-! ## holdIn -/

@[simp] theorem holdIn_cfg (s : State) : (holdIn s).cfg = s.cfg := rfl
@[simp] theorem holdIn_mem (s : State) : (holdIn s).mem = s.mem := rfl
@[simp] theorem holdIn_acc (s : State) : (holdIn s).acc = s.acc := rfl
@[simp] theorem holdIn_pc (s : State) : (holdIn s).pc = s.pc := rfl
@[simp] theorem holdIn_ir (s : State) : (holdIn s).ir = s.ir := rfl
@[simp] theorem holdIn_op (s : State) : (holdIn s).op = s.op := rfl
@[simp] theorem holdIn_m (s : State) : (holdIn s).m = s.m := rfl
@[simp] theorem holdIn_opd (s : State) : (holdIn s).opd = s.opd := rfl
@[simp] theorem holdIn_status (s : State) : (holdIn s).status = s.status := rfl
@[simp] theorem holdIn_errcode (s : State) : (holdIn s).errcode = s.errcode := rfl
@[simp] theorem holdIn_hold (s : State) : (holdIn s).hold = .waitIn := rfl
@[simp] theorem holdIn_inReady (s : State) : (holdIn s).inReady = true := rfl
@[simp] theorem holdIn_outValid (s : State) : (holdIn s).outValid = s.outValid := rfl
@[simp] theorem holdIn_outData (s : State) : (holdIn s).outData = s.outData := rfl
@[simp] theorem holdIn_inStream (s : State) : (holdIn s).inStream = s.inStream := rfl
@[simp] theorem holdIn_outReady (s : State) : (holdIn s).outReady = s.outReady := rfl
@[simp] theorem holdIn_outLog (s : State) : (holdIn s).outLog = s.outLog := rfl

/-! ## latch -/

@[simp] theorem latch_cfg (s : State) (w : Word) : (latch w s).cfg = s.cfg := rfl
@[simp] theorem latch_mem (s : State) (w : Word) : (latch w s).mem = s.mem := rfl
@[simp] theorem latch_acc (s : State) (w : Word) : (latch w s).acc = s.acc := rfl
@[simp] theorem latch_pc (s : State) (w : Word) : (latch w s).pc = s.pc + 1 := rfl
@[simp] theorem latch_ir (s : State) (w : Word) : (latch w s).ir = w := rfl
@[simp] theorem latch_op (s : State) (w : Word) : (latch w s).op = opField w := rfl
@[simp] theorem latch_m (s : State) (w : Word) : (latch w s).m = mField w := rfl
@[simp] theorem latch_opd (s : State) (w : Word) : (latch w s).opd = opdField w := rfl
@[simp] theorem latch_status (s : State) (w : Word) : (latch w s).status = s.status := rfl
@[simp] theorem latch_errcode (s : State) (w : Word) : (latch w s).errcode = s.errcode := rfl
@[simp] theorem latch_hold (s : State) (w : Word) : (latch w s).hold = s.hold := rfl
@[simp] theorem latch_inReady (s : State) (w : Word) : (latch w s).inReady = s.inReady := rfl
@[simp] theorem latch_outValid (s : State) (w : Word) : (latch w s).outValid = s.outValid := rfl
@[simp] theorem latch_outData (s : State) (w : Word) : (latch w s).outData = s.outData := rfl
@[simp] theorem latch_inStream (s : State) (w : Word) : (latch w s).inStream = s.inStream := rfl
@[simp] theorem latch_outReady (s : State) (w : Word) : (latch w s).outReady = s.outReady := rfl
@[simp] theorem latch_outLog (s : State) (w : Word) : (latch w s).outLog = s.outLog := rfl

/-! ## assertReset -/

@[simp] theorem assertReset_cfg (s : State) : (assertReset s).cfg = s.cfg := rfl
@[simp] theorem assertReset_mem (s : State) : (assertReset s).mem = s.mem := rfl
@[simp] theorem assertReset_acc (s : State) : (assertReset s).acc = 0 := rfl
@[simp] theorem assertReset_pc (s : State) : (assertReset s).pc = 0 := rfl
@[simp] theorem assertReset_ir (s : State) : (assertReset s).ir = 0 := rfl
@[simp] theorem assertReset_op (s : State) : (assertReset s).op = 0 := rfl
@[simp] theorem assertReset_m (s : State) : (assertReset s).m = 0 := rfl
@[simp] theorem assertReset_opd (s : State) : (assertReset s).opd = 0 := rfl
@[simp] theorem assertReset_status (s : State) : (assertReset s).status = .idle := rfl
@[simp] theorem assertReset_errcode (s : State) : (assertReset s).errcode = 0 := rfl
@[simp] theorem assertReset_hold (s : State) : (assertReset s).hold = .noHold := rfl
@[simp] theorem assertReset_inReady (s : State) : (assertReset s).inReady = false := rfl
@[simp] theorem assertReset_outValid (s : State) : (assertReset s).outValid = false := rfl
@[simp] theorem assertReset_outData (s : State) : (assertReset s).outData = s.outData := rfl
@[simp] theorem assertReset_inStream (s : State) : (assertReset s).inStream = s.inStream := rfl
@[simp] theorem assertReset_outReady (s : State) : (assertReset s).outReady = s.outReady := rfl
@[simp] theorem assertReset_outLog (s : State) : (assertReset s).outLog = [] := rfl

/-! ## placeWord -/

@[simp] theorem placeWord_cfg (s : State) (w : Word) : (placeWord w s).cfg = s.cfg := rfl
@[simp] theorem placeWord_mem (s : State) (w : Word) : (placeWord w s).mem = Memory.write s.mem s.pc.toNat w := rfl
@[simp] theorem placeWord_acc (s : State) (w : Word) : (placeWord w s).acc = s.acc := rfl
@[simp] theorem placeWord_pc (s : State) (w : Word) : (placeWord w s).pc = s.pc := rfl
@[simp] theorem placeWord_ir (s : State) (w : Word) : (placeWord w s).ir = s.ir := rfl
@[simp] theorem placeWord_op (s : State) (w : Word) : (placeWord w s).op = s.op := rfl
@[simp] theorem placeWord_m (s : State) (w : Word) : (placeWord w s).m = s.m := rfl
@[simp] theorem placeWord_opd (s : State) (w : Word) : (placeWord w s).opd = s.opd := rfl
@[simp] theorem placeWord_status (s : State) (w : Word) : (placeWord w s).status = .run := rfl
@[simp] theorem placeWord_errcode (s : State) (w : Word) : (placeWord w s).errcode = 0 := rfl
@[simp] theorem placeWord_hold (s : State) (w : Word) : (placeWord w s).hold = .noHold := rfl
@[simp] theorem placeWord_inReady (s : State) (w : Word) : (placeWord w s).inReady = s.inReady := rfl
@[simp] theorem placeWord_outValid (s : State) (w : Word) : (placeWord w s).outValid = s.outValid := rfl
@[simp] theorem placeWord_outData (s : State) (w : Word) : (placeWord w s).outData = s.outData := rfl
@[simp] theorem placeWord_inStream (s : State) (w : Word) : (placeWord w s).inStream = s.inStream := rfl
@[simp] theorem placeWord_outReady (s : State) (w : Word) : (placeWord w s).outReady = s.outReady := rfl
@[simp] theorem placeWord_outLog (s : State) (w : Word) : (placeWord w s).outLog = s.outLog := rfl

/-! ## driveInput -/

@[simp] theorem driveInput_cfg (s : State) (p : InPins) : (driveInput p s).cfg = s.cfg := rfl
@[simp] theorem driveInput_mem (s : State) (p : InPins) : (driveInput p s).mem = s.mem := rfl
@[simp] theorem driveInput_acc (s : State) (p : InPins) : (driveInput p s).acc = s.acc := rfl
@[simp] theorem driveInput_pc (s : State) (p : InPins) : (driveInput p s).pc = s.pc := rfl
@[simp] theorem driveInput_ir (s : State) (p : InPins) : (driveInput p s).ir = s.ir := rfl
@[simp] theorem driveInput_op (s : State) (p : InPins) : (driveInput p s).op = s.op := rfl
@[simp] theorem driveInput_m (s : State) (p : InPins) : (driveInput p s).m = s.m := rfl
@[simp] theorem driveInput_opd (s : State) (p : InPins) : (driveInput p s).opd = s.opd := rfl
@[simp] theorem driveInput_status (s : State) (p : InPins) : (driveInput p s).status = s.status := rfl
@[simp] theorem driveInput_errcode (s : State) (p : InPins) : (driveInput p s).errcode = s.errcode := rfl
@[simp] theorem driveInput_hold (s : State) (p : InPins) : (driveInput p s).hold = s.hold := rfl
@[simp] theorem driveInput_inReady (s : State) (p : InPins) : (driveInput p s).inReady = s.inReady := rfl
@[simp] theorem driveInput_outValid (s : State) (p : InPins) : (driveInput p s).outValid = s.outValid := rfl
@[simp] theorem driveInput_outData (s : State) (p : InPins) : (driveInput p s).outData = s.outData := rfl
@[simp] theorem driveInput_inStream (s : State) (p : InPins) : (driveInput p s).inStream = s.inStream ++ [p] := rfl
@[simp] theorem driveInput_outReady (s : State) (p : InPins) : (driveInput p s).outReady = s.outReady := rfl
@[simp] theorem driveInput_outLog (s : State) (p : InPins) : (driveInput p s).outLog = s.outLog := rfl

/-! ## driveOutReady -/

@[simp] theorem driveOutReady_cfg (s : State) (b : Bool) : (driveOutReady b s).cfg = s.cfg := rfl
@[simp] theorem driveOutReady_mem (s : State) (b : Bool) : (driveOutReady b s).mem = s.mem := rfl
@[simp] theorem driveOutReady_acc (s : State) (b : Bool) : (driveOutReady b s).acc = s.acc := rfl
@[simp] theorem driveOutReady_pc (s : State) (b : Bool) : (driveOutReady b s).pc = s.pc := rfl
@[simp] theorem driveOutReady_ir (s : State) (b : Bool) : (driveOutReady b s).ir = s.ir := rfl
@[simp] theorem driveOutReady_op (s : State) (b : Bool) : (driveOutReady b s).op = s.op := rfl
@[simp] theorem driveOutReady_m (s : State) (b : Bool) : (driveOutReady b s).m = s.m := rfl
@[simp] theorem driveOutReady_opd (s : State) (b : Bool) : (driveOutReady b s).opd = s.opd := rfl
@[simp] theorem driveOutReady_status (s : State) (b : Bool) : (driveOutReady b s).status = s.status := rfl
@[simp] theorem driveOutReady_errcode (s : State) (b : Bool) : (driveOutReady b s).errcode = s.errcode := rfl
@[simp] theorem driveOutReady_hold (s : State) (b : Bool) : (driveOutReady b s).hold = s.hold := rfl
@[simp] theorem driveOutReady_inReady (s : State) (b : Bool) : (driveOutReady b s).inReady = s.inReady := rfl
@[simp] theorem driveOutReady_outValid (s : State) (b : Bool) : (driveOutReady b s).outValid = s.outValid := rfl
@[simp] theorem driveOutReady_outData (s : State) (b : Bool) : (driveOutReady b s).outData = s.outData := rfl
@[simp] theorem driveOutReady_inStream (s : State) (b : Bool) : (driveOutReady b s).inStream = s.inStream := rfl
@[simp] theorem driveOutReady_outReady (s : State) (b : Bool) : (driveOutReady b s).outReady = b := rfl
@[simp] theorem driveOutReady_outLog (s : State) (b : Bool) : (driveOutReady b s).outLog = s.outLog := rfl

/-! ## feedInput -/

@[simp] theorem feedInput_cfg (s : State) (r : List Token) : (feedInput r s).cfg = s.cfg := rfl
@[simp] theorem feedInput_mem (s : State) (r : List Token) : (feedInput r s).mem = s.mem := rfl
@[simp] theorem feedInput_acc (s : State) (r : List Token) : (feedInput r s).acc = s.acc := rfl
@[simp] theorem feedInput_pc (s : State) (r : List Token) : (feedInput r s).pc = s.pc := rfl
@[simp] theorem feedInput_ir (s : State) (r : List Token) : (feedInput r s).ir = s.ir := rfl
@[simp] theorem feedInput_op (s : State) (r : List Token) : (feedInput r s).op = s.op := rfl
@[simp] theorem feedInput_m (s : State) (r : List Token) : (feedInput r s).m = s.m := rfl
@[simp] theorem feedInput_opd (s : State) (r : List Token) : (feedInput r s).opd = s.opd := rfl
@[simp] theorem feedInput_status (s : State) (r : List Token) : (feedInput r s).status = s.status := rfl
@[simp] theorem feedInput_errcode (s : State) (r : List Token) : (feedInput r s).errcode = s.errcode := rfl
@[simp] theorem feedInput_hold (s : State) (r : List Token) : (feedInput r s).hold = s.hold := rfl
@[simp] theorem feedInput_inReady (s : State) (r : List Token) : (feedInput r s).inReady = s.inReady := rfl
@[simp] theorem feedInput_outValid (s : State) (r : List Token) : (feedInput r s).outValid = s.outValid := rfl
@[simp] theorem feedInput_outData (s : State) (r : List Token) : (feedInput r s).outData = s.outData := rfl
@[simp] theorem feedInput_inStream (s : State) (r : List Token) : (feedInput r s).inStream = r.map tokenPins ++ [endPins] := rfl
@[simp] theorem feedInput_outReady (s : State) (r : List Token) : (feedInput r s).outReady = s.outReady := rfl
@[simp] theorem feedInput_outLog (s : State) (r : List Token) : (feedInput r s).outLog = s.outLog := rfl

end Sys2Proof.Machine
end

