-- ==== Sys2Proof/Laws/Memory.lean ====
section
/-! SUPPORT. Memory: read after write, the canonical form, and its uniqueness. -/

namespace Sys2Proof.Machine

theorem wfFrom_cons {lo k : Nat} {v : Word} {r : Memory} :
    Memory.wfFrom lo ((k, v) :: r) = true ↔ lo ≤ k ∧ k < memWords ∧ v ≠ 0 ∧ Memory.wfFrom (k + 1) r = true := by
  simp [Memory.wfFrom, and_assoc]

theorem wfFrom_mono {lo lo' : Nat} (m : Memory) (hle : lo' ≤ lo) (h : Memory.wfFrom lo m = true) :
    Memory.wfFrom lo' m = true := by
  cases m with
  | nil => rfl
  | cons c r =>
    obtain ⟨k, v⟩ := c
    rw [wfFrom_cons] at h ⊢
    exact ⟨by omega, h.2⟩

/-- Below its first possible address a canonical memory reads as clear. -/
theorem read_below {lo : Nat} (m : Memory) (h : Memory.wfFrom lo m = true) {a : Nat} (ha : a < lo) :
    Memory.read m a = 0 := by
  induction m generalizing lo with
  | nil => rfl
  | cons c r ih =>
    obtain ⟨k, v⟩ := c
    rw [wfFrom_cons] at h
    have hk : k ≠ a := by omega
    simp only [Memory.read, if_neg hk]
    exact ih h.2.2.2 (by omega)

/-- A canonical memory reads as clear outside the address space. -/
theorem read_beyond {lo : Nat} (m : Memory) (h : Memory.wfFrom lo m = true) {a : Nat} (ha : memWords ≤ a) :
    Memory.read m a = 0 := by
  induction m generalizing lo with
  | nil => rfl
  | cons c r ih =>
    obtain ⟨k, v⟩ := c
    rw [wfFrom_cons] at h
    have hk : k ≠ a := by omega
    simp only [Memory.read, if_neg hk]
    exact ih h.2.2.2

theorem write_wfFrom {lo : Nat} (m : Memory) (h : Memory.wfFrom lo m = true) {a : Nat} (w : Word) (hlo : lo ≤ a)
    (ha : a < memWords) : Memory.wfFrom lo (Memory.write m a w) = true := by
  induction m generalizing lo with
  | nil =>
    unfold Memory.write
    split_ifs with hw
    · rfl
    · exact wfFrom_cons.mpr ⟨hlo, ha, hw, rfl⟩
  | cons c r ih =>
    obtain ⟨k, v⟩ := c
    have h' := wfFrom_cons.mp h
    unfold Memory.write
    split_ifs with h1 h2 h3 h4
    · exact h
    · exact wfFrom_cons.mpr ⟨hlo, ha, h2, wfFrom_cons.mpr ⟨h1, h'.2⟩⟩
    · exact wfFrom_mono r (by omega) h'.2.2.2
    · exact wfFrom_cons.mpr ⟨hlo, ha, h4, by rw [h3]; exact h'.2.2.2⟩
    · exact wfFrom_cons.mpr ⟨h'.1, h'.2.1, h'.2.2.1, ih h'.2.2.2 (by omega)⟩

/-- A write keeps the canonical form. -/
theorem write_wf {m : Memory} (h : m.wf = true) {a : Nat} (w : Word) (ha : a < memWords) :
    (m.write a w).wf = true := write_wfFrom m h w (Nat.zero_le a) ha

theorem read_cons (k : Nat) (v : Word) (r : Memory) (b : Nat) :
    Memory.read ((k, v) :: r) b = if k = b then v else Memory.read r b := rfl

theorem read_write_from {lo : Nat} (m : Memory) (h : Memory.wfFrom lo m = true) (a b : Nat) (w : Word) :
    Memory.read (Memory.write m a w) b = if b = a then w else Memory.read m b := by
  induction m generalizing lo with
  | nil =>
    unfold Memory.write
    split_ifs with hw hb hb
    · rw [hw]; rfl
    · rfl
    · rw [read_cons, if_pos hb.symm]
    · rw [read_cons, if_neg (Ne.symm hb)]
  | cons c r ih =>
    obtain ⟨k, v⟩ := c
    have h' := wfFrom_cons.mp h
    unfold Memory.write
    by_cases hlt : a < k
    · rw [if_pos hlt]
      have hclear : Memory.read ((k, v) :: r) a = 0 := read_below _ (wfFrom_cons.mpr ⟨le_refl k, h'.2⟩) hlt
      split_ifs with hw hb hb
      · rw [hb, hclear, hw]
      · rfl
      · rw [read_cons, if_pos hb.symm]
      · rw [read_cons, if_neg (Ne.symm hb)]
    · rw [if_neg hlt]
      by_cases hak : a = k
      · subst hak
        rw [if_pos rfl]
        have hclear : Memory.read r a = 0 := read_below r h'.2.2.2 (Nat.lt_succ_self a)
        split_ifs with hw hb hb
        · rw [hb, hclear, hw]
        · rw [read_cons, if_neg (Ne.symm hb)]
        · rw [read_cons, if_pos hb.symm]
        · rw [read_cons, read_cons, if_neg (Ne.symm hb), if_neg (Ne.symm hb)]
      · rw [if_neg hak, read_cons, read_cons, ih h'.2.2.2]
        by_cases hkb : k = b
        · rw [if_pos hkb, if_pos hkb, if_neg (by omega)]
        · rw [if_neg hkb, if_neg hkb]

/-- Read after write: the word written at its address, every other word as before (R32). -/
theorem read_write {m : Memory} (h : m.wf = true) (a b : Nat) (w : Word) :
    (m.write a w).read b = if b = a then w else m.read b := read_write_from m h a b w

theorem eq_of_read_eq_from {lo : Nat} (m n : Memory) (hm : Memory.wfFrom lo m = true) (hn : Memory.wfFrom lo n = true)
    (h : ∀ a, Memory.read m a = Memory.read n a) : m = n := by
  induction m generalizing lo n with
  | nil =>
    cases n with
    | nil => rfl
    | cons c r =>
      obtain ⟨k, v⟩ := c
      have := h k
      simp [Memory.read] at this
      exact absurd this.symm (wfFrom_cons.mp hn).2.2.1
  | cons c r ih =>
    obtain ⟨k, v⟩ := c
    have hm' := wfFrom_cons.mp hm
    cases n with
    | nil =>
      have := h k
      simp [Memory.read] at this
      exact absurd this hm'.2.2.1
    | cons d q =>
      obtain ⟨j, u⟩ := d
      have hn' := wfFrom_cons.mp hn
      have hkj : k = j := by
        rcases Nat.lt_trichotomy k j with hlt | heq | hgt
        · have hk := h k
          rw [read_below (lo := j) ((j, u) :: q) (wfFrom_cons.mpr ⟨le_refl j, hn'.2⟩) hlt] at hk
          simp [Memory.read] at hk
          exact absurd hk hm'.2.2.1
        · exact heq
        · have hj := h j
          rw [read_below (lo := k) ((k, v) :: r) (wfFrom_cons.mpr ⟨le_refl k, hm'.2⟩) hgt] at hj
          simp [Memory.read] at hj
          exact absurd hj.symm hn'.2.2.1
      subst hkj
      have hv : v = u := by simpa [Memory.read] using h k
      subst hv
      have hrq : r = q := by
        refine ih q hm'.2.2.2 hn'.2.2.2 fun a => ?_
        by_cases ha : k = a
        · subst ha
          rw [read_below r hm'.2.2.2 (Nat.lt_succ_self k), read_below q hn'.2.2.2 (Nat.lt_succ_self k)]
        · have := h a
          simpa only [Memory.read, if_neg ha] using this
      rw [hrq]

theorem addr_lt_memWords (a : Addr) : a.toNat < memWords := a.isLt

/-- Read after write at word addresses (R32). -/
theorem memRead_memWrite {s : State} (h : s.mem.wf = true) (a b : Addr) (w : Word) :
    (s.memWrite a w).memRead b = if b = a then w else s.memRead b := by
  unfold State.memRead
  rw [memWrite_mem, read_write h]
  simp only [BitVec.toNat_inj]

/-- A memory write keeps the canonical form. -/
theorem memWrite_wf {s : State} (h : s.mem.wf = true) (a : Addr) (w : Word) : (s.memWrite a w).mem.wf = true := by
  rw [memWrite_mem]
  exact write_wf h w (addr_lt_memWords a)

/-- Reset memory is canonical. -/
theorem reset_mem_wf : State.reset.mem.wf = true := rfl

end Sys2Proof.Machine
end

