-- ==== Sys2Proof/Laws/Exec.lean ====
section
/-! SUPPORT. One spec lemma per shared operation, and what an instruction and a step can do, said once. -/

namespace Sys2Proof.Machine

/-! ## Checks and operands -/

theorem validateData_ok {a : Addr} {s : State} (h : InData s.cfg a) : validateData a s = .ok () := if_pos h

theorem validateData_error {a : Addr} {s : State} (h : ¬ InData s.cfg a) :
    validateData a s = .error (.invalidAddress .data a) := if_neg h

theorem validateFetch_ok {a : Addr} (h : a.toNat ≤ codeHi) : validateFetch a = .ok () := if_pos h

theorem validateFetch_error {a : Addr} (h : ¬ a.toNat ≤ codeHi) :
    validateFetch a = .error (.invalidAddress .fetch a) := if_neg h

/-- Resolve returns the word of the relation that states R61. -/
theorem resolve_ok {s : State} {v : Operand} {w : Word} (h : ResolvesTo s v w) : resolve v s = .ok w := by
  cases v with
  | imm n => cases h; rfl
  | mem a =>
    obtain ⟨ha, rfl⟩ := h
    simp only [resolve, validateData_ok ha]

/-- Resolve raises exactly where R61 says. -/
theorem resolve_error {s : State} {v : Operand} (h : ResolveFails s v) :
    resolve v s = .error (.invalidAddress .data v.opd) := by
  cases v with
  | imm n => exact h.elim
  | mem a => simp only [resolve, validateData_error h, Operand.opd]

/-- An operand resolves to exactly one word, or its address is refused. -/
theorem resolves_or_fails (s : State) (v : Operand) : (∃ w, ResolvesTo s v w) ∨ ResolveFails s v := by
  cases v with
  | imm n => exact .inl ⟨_, rfl⟩
  | mem a =>
    by_cases h : InData s.cfg a
    · exact .inl ⟨_, h, rfl⟩
    · exact .inr h

theorem accumulate_ok {s : State} {v : Operand} {w r : Word} {f : Word → Except Fault Word} (hv : ResolvesTo s v w)
    (hf : f w = .ok r) : accumulate v f s = .next (s.setAcc r) := by
  simp only [accumulate, resolve_ok hv, hf, settle]

theorem accumulate_check {s : State} {v : Operand} {w : Word} {e : Fault} {f : Word → Except Fault Word}
    (hv : ResolvesTo s v w) (hf : f w = .error e) : accumulate v f s = .next (raise e s) := by
  simp only [accumulate, resolve_ok hv, hf, settle]

theorem accumulate_address {s : State} {v : Operand} {f : Word → Except Fault Word} (hv : ResolveFails s v) :
    accumulate v f s = .next (raise (.invalidAddress .data v.opd) s) := by
  simp only [accumulate, resolve_error hv, settle]

theorem withDataAddr_ok {s : State} {a : Addr} {f : State → State} (h : InData s.cfg a) :
    withDataAddr a f s = .next (f s) := by
  simp only [withDataAddr, validateData_ok h, settle]

theorem withDataAddr_error {s : State} {a : Addr} {f : State → State} (h : ¬ InData s.cfg a) :
    withDataAddr a f s = .next (raise (.invalidAddress .data a) s) := by
  simp only [withDataAddr, validateData_error h, settle]

theorem nonZeroDivisor_zero (r : Word) : nonZeroDivisor 0 r = .error .divisionByZero := rfl

theorem nonZeroDivisor_ok {w : Word} (h : w ≠ 0) (r : Word) : nonZeroDivisor w r = .ok r := if_neg h

/-! ## Ports -/

/-- What one look at the input port can do (R67, R68). -/
inductive ReadEffect (a : Addr) (s : State) : State → Prop where
  | noLook (h : s.inStream = []) : ReadEffect a s (holdIn s)
  | neither (p : InPins) (rest : List InPins) (h : s.inStream = p :: rest) (he : p.inEnd = false)
      (hv : p.inValid = false) : ReadEffect a s (holdIn { s with inStream := rest })
  | word (p : InPins) (rest : List InPins) (h : s.inStream = p :: rest) (he : p.inEnd = false) (hv : p.inValid = true) :
      ReadEffect a s
        { s.memWrite a p.inData with inStream := rest, inReady := true, hold := .noHold }
  | ended (p : InPins) (rest : List InPins) (h : s.inStream = p :: rest) (he : p.inEnd = true) :
      ReadEffect a s (raise .inputError { s with inReady := true, hold := .noHold })

theorem readInto_effect (a : Addr) (s : State) : ReadEffect a s (readInto a s) := by
  unfold readInto
  split
  · rename_i h; exact .noLook h
  · rename_i p rest h
    split_ifs with he hv
    · exact .ended p rest h he
    · exact .word p rest h (by simpa using he) hv
    · exact .neither p rest h (by simpa using he) (by simpa using hv)

theorem outWrite_taken {s : State} (h : s.outReady = true) (v : Word) :
    outWrite v s = { s with outData := v, outValid := false, hold := .noHold, outLog := s.outLog ++ [v] } := if_pos h

theorem outWrite_waits {s : State} (h : s.outReady = false) (v : Word) :
    outWrite v s = { s with outData := v, outValid := true, hold := .waitOut } := by
  simp [outWrite, h]

/-- A look at the input port touches neither ACC, PC, the decode fields, the output port nor the build. -/
theorem readInto_frame (a : Addr) (s : State) :
    (readInto a s).cfg = s.cfg ∧ (readInto a s).acc = s.acc ∧ (readInto a s).pc = s.pc ∧ (readInto a s).ir = s.ir ∧
    (readInto a s).op = s.op ∧ (readInto a s).m = s.m ∧ (readInto a s).opd = s.opd ∧
    (readInto a s).outValid = s.outValid ∧ (readInto a s).outData = s.outData ∧
    (readInto a s).outReady = s.outReady ∧ (readInto a s).outLog = s.outLog := by
  have h := readInto_effect a s
  revert h
  generalize readInto a s = t
  intro h
  cases h <;> exact ⟨rfl, rfl, rfl, rfl, rfl, rfl, rfl, rfl, rfl, rfl, rfl⟩

/-- A look at the input port faults only on `end`, and then writes nothing but the error state and the handshake. -/
theorem readInto_faulted {a : Addr} {s : State} (hs : s.status ≠ .faulted) (h : (readInto a s).status = .faulted) :
    readInto a s = raise .inputError { s with inReady := true, hold := .noHold } := by
  have he := readInto_effect a s
  revert he h
  generalize readInto a s = t
  intro h he
  cases he with
  | ended p rest => rfl
  | _ => exact absurd h hs

/-- OutWrite touches only the output port, the log and the handshake. -/
theorem outWrite_frame (v : Word) (s : State) :
    (outWrite v s).cfg = s.cfg ∧ (outWrite v s).mem = s.mem ∧ (outWrite v s).acc = s.acc ∧ (outWrite v s).pc = s.pc ∧
    (outWrite v s).ir = s.ir ∧ (outWrite v s).op = s.op ∧ (outWrite v s).m = s.m ∧ (outWrite v s).opd = s.opd ∧
    (outWrite v s).status = s.status ∧ (outWrite v s).errcode = s.errcode ∧ (outWrite v s).inReady = s.inReady ∧
    (outWrite v s).inStream = s.inStream ∧ (outWrite v s).outReady = s.outReady := by
  unfold outWrite
  split_ifs <;> exact ⟨rfl, rfl, rfl, rfl, rfl, rfl, rfl, rfl, rfl, rfl, rfl, rfl, rfl⟩

/-- OutWrite appends its word, or nothing yet. -/
theorem outWrite_log (v : Word) (s : State) :
    (outWrite v s).outLog = s.outLog ++ [v] ∨ (outWrite v s).outLog = s.outLog := by
  unfold outWrite
  split_ifs
  · exact .inl rfl
  · exact .inr rfl

/-! ## Instructions -/

theorem not_jumpTaken {i : Instr} {s : State}
    (h : i.mnemonic ≠ .jump ∧ i.mnemonic ≠ .jneg ∧ i.mnemonic ≠ .jzero) : ¬ JumpTaken i s := by
  rintro (hj | ⟨hj, -⟩ | ⟨hj, -⟩)
  exacts [h.1 hj, h.2.1 hj, h.2.2 hj]

/-- No jump names a data address. -/
theorem not_jumpTaken_of_dataAddr {i : Instr} {s : State} {a : Addr} (h : i.dataAddr? = some a) : ¬ JumpTaken i s := by
  refine not_jumpTaken ?_
  cases i <;> first | (simp [Instr.mnemonic]; done) | cases h

/-- What an instruction can do, with the conditions under which it does (R60, R63). -/
inductive ExecEffect (i : Instr) (s : State) : State → Prop where
  | badAddress (a : Addr) (hi : i.dataAddr? = some a) (ha : ¬ InData s.cfg a) :
      ExecEffect i s (raise (.invalidAddress .data a) s)
  | zeroDivisor (hi : i.mnemonic = .div ∨ i.mnemonic = .mod) (ha : ∀ a, i.dataAddr? = some a → InData s.cfg a) :
      ExecEffect i s (raise .divisionByZero s)
  | accumulator (w : Word) (hi : i.mnemonic ≠ .eoc ∧ i.mnemonic ≠ .halt)
      (ha : ∀ a, i.dataAddr? = some a → InData s.cfg a) (hj : ¬ JumpTaken i s) : ExecEffect i s (s.setAcc w)
  | store (m : BitVec 1) (a : Addr) (hi : i = .store m a) (ha : InData s.cfg a) :
      ExecEffect i s (s.memWrite a s.acc)
  | read (m : BitVec 1) (a : Addr) (hi : i = .read m a) (ha : InData s.cfg a) : ExecEffect i s (readInto a s)
  | write (m : BitVec 1) (a : Addr) (hi : i = .write m a) (ha : InData s.cfg a) :
      ExecEffect i s (outWrite (s.memRead a) s)
  | jump (hi : JumpTaken i s) (ha : i.dataAddr? = none) : ExecEffect i s (s.setPc i.opd)
  | nothing (hi : i.mnemonic ≠ .eoc ∧ i.mnemonic ≠ .halt) (ha : i.dataAddr? = none) (hj : ¬ JumpTaken i s) :
      ExecEffect i s s
  | terminal (hi : i.mnemonic = .eoc ∨ i.mnemonic = .halt) (ha : i.dataAddr? = none) : ExecEffect i s (stop s)

/-- The data address a resolved operand names, if any. -/
theorem resolvesTo_inData {s : State} {v : Operand} {w : Word} (h : ResolvesTo s v w) {a : Addr} (ha : v = .mem a) :
    InData s.cfg a := by
  subst ha; exact h.1

/-- Every instruction of the resolved class without a check of its own writes ACC or refuses its address. -/
theorem accumulate_effect {i : Instr} {s : State} {v : Operand} {f : Word → Except Fault Word}
    (hi : i.dataAddr? = match v with | .imm _ => none | .mem a => some a)
    (hn : i.mnemonic ≠ .eoc ∧ i.mnemonic ≠ .halt) (hj : ¬ JumpTaken i s)
    (hf : ∀ w, (∃ r, f w = .ok r) ∨ (f w = .error .divisionByZero ∧ (i.mnemonic = .div ∨ i.mnemonic = .mod))) :
    ∃ t, accumulate v f s = .next t ∧ ExecEffect i s t := by
  rcases resolves_or_fails s v with ⟨w, hw⟩ | hbad
  · have ha : ∀ a, i.dataAddr? = some a → InData s.cfg a := by
      intro a hia
      rw [hi] at hia
      cases v with
      | imm n => cases hia
      | mem b => cases hia; exact hw.1
    rcases hf w with ⟨r, hr⟩ | ⟨he, hm⟩
    · exact ⟨_, accumulate_ok hw hr, .accumulator r hn ha hj⟩
    · exact ⟨_, accumulate_check hw he, .zeroDivisor hm ha⟩
  · cases v with
    | imm n => exact hbad.elim
    | mem a => exact ⟨_, accumulate_address hbad, .badAddress a hi hbad⟩

theorem withDataAddr_effect {i : Instr} {s : State} {a : Addr} {f : State → State} (hi : i.dataAddr? = some a)
    (hf : InData s.cfg a → ExecEffect i s (f s)) : ∃ t, withDataAddr a f s = .next t ∧ ExecEffect i s t := by
  by_cases h : InData s.cfg a
  · exact ⟨_, withDataAddr_ok h, hf h⟩
  · exact ⟨_, withDataAddr_error h, .badAddress a hi h⟩

/-- Every instruction answers a next state, and this is all it can do. -/
theorem exec_effect (i : Instr) (s : State) : ∃ t, exec i s = .next t ∧ ExecEffect i s t := by
  cases i with
  | eoc m x => exact ⟨_, rfl, .terminal (.inl rfl) rfl⟩
  | halt m x => exact ⟨_, rfl, .terminal (.inr rfl) rfl⟩
  | load v =>
    exact accumulate_effect (by cases v <;> rfl) (by simp [Instr.mnemonic])
      (not_jumpTaken (by simp [Instr.mnemonic])) fun w => .inl ⟨_, rfl⟩
  | add v =>
    exact accumulate_effect (by cases v <;> rfl) (by simp [Instr.mnemonic])
      (not_jumpTaken (by simp [Instr.mnemonic])) fun w => .inl ⟨_, rfl⟩
  | sub v =>
    exact accumulate_effect (by cases v <;> rfl) (by simp [Instr.mnemonic])
      (not_jumpTaken (by simp [Instr.mnemonic])) fun w => .inl ⟨_, rfl⟩
  | mul v =>
    exact accumulate_effect (by cases v <;> rfl) (by simp [Instr.mnemonic])
      (not_jumpTaken (by simp [Instr.mnemonic])) fun w => .inl ⟨_, rfl⟩
  | div v =>
    refine accumulate_effect (by cases v <;> rfl) (by simp [Instr.mnemonic])
      (not_jumpTaken (by simp [Instr.mnemonic])) fun w => ?_
    by_cases hw : w = 0
    · exact .inr ⟨by rw [hw]; rfl, .inl rfl⟩
    · exact .inl ⟨_, nonZeroDivisor_ok hw _⟩
  | mod v =>
    refine accumulate_effect (by cases v <;> rfl) (by simp [Instr.mnemonic])
      (not_jumpTaken (by simp [Instr.mnemonic])) fun w => ?_
    by_cases hw : w = 0
    · exact .inr ⟨by rw [hw]; rfl, .inr rfl⟩
    · exact .inl ⟨_, nonZeroDivisor_ok hw _⟩
  | store m a => exact withDataAddr_effect (s := s) (f := fun s => s.memWrite a s.acc) rfl (.store m a rfl ·)
  | read m a => exact withDataAddr_effect (s := s) (f := readInto a) rfl (.read m a rfl ·)
  | write m a =>
    exact withDataAddr_effect (s := s) (f := fun s => outWrite (s.memRead a) s) rfl (.write m a rfl ·)
  | neg m x => exact ⟨_, rfl, .accumulator _ ⟨nofun, nofun⟩ nofun (not_jumpTaken ⟨nofun, nofun, nofun⟩)⟩
  | nop m x => exact ⟨_, rfl, .nothing ⟨nofun, nofun⟩ rfl (not_jumpTaken ⟨nofun, nofun, nofun⟩)⟩
  | jump m t => exact ⟨_, rfl, .jump (.inl rfl) rfl⟩
  | jneg m t =>
    by_cases h : s.acc.toInt < 0
    · exact ⟨s.setPc t, by simp [exec, execJneg, jumpIf, accNegative, s16, h], .jump (.inr (.inl ⟨rfl, h⟩)) rfl⟩
    · exact ⟨s, by simp [exec, execJneg, jumpIf, accNegative, s16, h],
        .nothing ⟨nofun, nofun⟩ rfl (by rintro (h' | ⟨-, h'⟩ | ⟨h', -⟩) <;> first | cases h' | exact h h')⟩
  | jzero m t =>
    by_cases h : s.acc = 0
    · exact ⟨s.setPc t, by simp [exec, execJzero, jumpIf, accZero, h], .jump (.inr (.inr ⟨rfl, h⟩)) rfl⟩
    · exact ⟨s, by simp only [exec, execJzero, jumpIf, accZero, h, decide_false, Bool.false_eq_true, if_false],
        .nothing ⟨nofun, nofun⟩ rfl (by rintro (h' | ⟨h', -⟩ | ⟨-, h'⟩) <;> first | cases h' | exact h h')⟩

/-- What an instruction leaves in PC: the operand of a taken jump, else PC. -/
theorem pc_of_effect {i : Instr} {s t : State} (h : ExecEffect i s t) :
    (JumpTaken i s ∧ t.pc = i.opd) ∨ (¬ JumpTaken i s ∧ t.pc = s.pc) := by
  cases h with
  | jump hi ha => exact .inl ⟨hi, rfl⟩
  | accumulator w hi ha hj => exact .inr ⟨hj, rfl⟩
  | nothing hi ha hj => exact .inr ⟨hj, rfl⟩
  | badAddress a hi ha => exact .inr ⟨not_jumpTaken_of_dataAddr hi, rfl⟩
  | zeroDivisor hi ha =>
    exact .inr ⟨not_jumpTaken (by rcases hi with h | h <;> rw [h] <;> exact ⟨nofun, nofun, nofun⟩), rfl⟩
  | store m a hi ha => exact .inr ⟨not_jumpTaken_of_dataAddr (a := a) (by rw [hi]; rfl), rfl⟩
  | read m a hi ha => exact .inr ⟨not_jumpTaken_of_dataAddr (a := a) (by rw [hi]; rfl), (readInto_frame a s).2.2.1⟩
  | write m a hi ha =>
    exact .inr ⟨not_jumpTaken_of_dataAddr (a := a) (by rw [hi]; rfl), (outWrite_frame _ s).2.2.2.1⟩
  | terminal hi ha =>
    exact .inr ⟨not_jumpTaken (by rcases hi with h | h <;> rw [h] <;> exact ⟨nofun, nofun, nofun⟩), rfl⟩

/-! ## Steps -/

/-- What a step can do, with the conditions under which it does (R55). -/
inductive StepEffect (s : State) : State → Prop where
  | stays (h : s.status ≠ .run) : StepEffect s s
  | guard (hr : s.status = .run) (hh : s.hold = .noHold) (hp : codeHi < s.pc.toNat) :
      StepEffect s (raise (.invalidAddress .fetch s.pc) s)
  | noRow (hr : s.status = .run) (hh : s.hold = .noHold) (hp : s.pc.toNat ≤ codeHi)
      (hd : s.cfg.opcodeMap.lookup (opField (s.memRead s.pc)) = none) :
      StepEffect s (raise (.invalidOpcode (opField (s.memRead s.pc))) (latch (s.memRead s.pc) s))
  | instr (i : Instr) (t : State) (hr : s.status = .run) (hh : s.hold = .noHold) (hp : s.pc.toNat ≤ codeHi)
      (hd : decode s.cfg.opcodeMap (s.memRead s.pc) = .ok i) (ht : ExecEffect i (latch (s.memRead s.pc) s) t) :
      StepEffect s t
  | resumeIn (hr : s.status = .run) (hh : s.hold = .waitIn) : StepEffect s (readInto s.opd s)
  | resumeOut (hr : s.status = .run) (hh : s.hold = .waitOut) : StepEffect s (outWrite s.outData s)

/-- A step whose ERRCODE is not reserved is the step of the status. -/
theorem step_of_legal {s : State} (h : s.errcode.toNat ≤ 4) :
    step s = match s.status with | .run => stepRun s | .idle => .next s | .halted => .next s | .faulted => .next s := by
  have hr : reservedErrcode s.errcode = false := by simp [reservedErrcode, h]
  unfold step stepCore
  rw [hr]
  cases s.status <;> rfl

theorem step_reserved {s : State} (h : ¬ s.errcode.toNat ≤ 4) : step s = .refused (.reservedErrcode s.errcode) := by
  have hr : reservedErrcode s.errcode = true := by simp only [reservedErrcode, decide_eq_true_eq]; omega
  simp only [step, stepCore, hr, if_true]

theorem step_stays {s : State} (h : s.errcode.toNat ≤ 4) (hs : s.status ≠ .run) : step s = .next s := by
  rw [step_of_legal h]
  split <;> first | rfl | contradiction

/-- Past the guard a running step executes the fetched word. -/
theorem step_fetch {s : State} (h : s.errcode.toNat ≤ 4) (hr : s.status = .run) (hh : s.hold = .noHold)
    (hp : s.pc.toNat ≤ codeHi) : step s = execWord (s.memRead s.pc) (latch (s.memRead s.pc) s) := by
  rw [step_of_legal h]
  simp only [hr, stepRun, hh, stepInstr, validateFetch_ok hp]

theorem step_guard {s : State} (h : s.errcode.toNat ≤ 4) (hr : s.status = .run) (hh : s.hold = .noHold)
    (hp : codeHi < s.pc.toNat) : step s = .next (raise (.invalidAddress .fetch s.pc) s) := by
  rw [step_of_legal h]
  simp only [hr, stepRun, hh, stepInstr, validateFetch_error (Nat.not_le.mpr hp)]

theorem step_waitIn {s : State} (h : s.errcode.toNat ≤ 4) (hr : s.status = .run) (hh : s.hold = .waitIn) :
    step s = .next (readInto s.opd s) := by
  rw [step_of_legal h]
  simp only [hr, stepRun, hh]

theorem step_waitOut {s : State} (h : s.errcode.toNat ≤ 4) (hr : s.status = .run) (hh : s.hold = .waitOut) :
    step s = .next (outWrite s.outData s) := by
  rw [step_of_legal h]
  simp only [hr, stepRun, hh]

/-- Every step with a legal ERRCODE answers a next state, and this is all it can do. -/
theorem step_effect {s : State} (h : s.errcode.toNat ≤ 4) : ∃ t, step s = .next t ∧ StepEffect s t := by
  by_cases hr : s.status = .run
  · cases hh : s.hold with
    | noHold =>
      by_cases hp : s.pc.toNat ≤ codeHi
      · rw [step_fetch h hr hh hp]
        unfold execWord
        rw [latch_cfg]
        cases hd : decode s.cfg.opcodeMap (s.memRead s.pc) with
        | ok i =>
          obtain ⟨t, ht, heff⟩ := exec_effect i (latch (s.memRead s.pc) s)
          exact ⟨t, ht, .instr i t hr hh hp hd heff⟩
        | error r =>
          obtain ⟨hl, rfl⟩ := decode_error hd
          exact ⟨_, rfl, .noRow hr hh hp hl⟩
      · exact ⟨_, step_guard h hr hh (by omega), .guard hr hh (by omega)⟩
    | waitIn => exact ⟨_, step_waitIn h hr hh, .resumeIn hr hh⟩
    | waitOut => exact ⟨_, step_waitOut h hr hh, .resumeOut hr hh⟩
  · exact ⟨s, step_stays h hr, .stays hr⟩

/-- The inversion of a step: an answer `next t` is one of the effects. -/
theorem effect_of_step {s t : State} (h : step s = .next t) : s.errcode.toNat ≤ 4 ∧ StepEffect s t := by
  by_cases hl : s.errcode.toNat ≤ 4
  · obtain ⟨u, hu, he⟩ := step_effect hl
    rw [hu] at h
    cases h
    exact ⟨hl, he⟩
  · rw [step_reserved hl] at h
    cases h

end Sys2Proof.Machine
end

