-- ==== Sys2Proof/Laws/PerInstr.lean ====
section
/-! SUPPORT. One lemma per instruction: the word an instruction encodes to carries its number, its M bit and its OPD
field, whatever the opcode map (R45). -/

namespace Sys2Proof.Laws.EncodedFields

/-- The three fields of an instruction's word (R45). -/
def Statement (i : Instr) : Prop :=
  ∀ k : OpcodeMap, opField (encode k i) = k.number i.mnemonic ∧ mField (encode k i) = i.mBit ∧
    opdField (encode k i) = i.opd

/-- The word of an instruction is the join of its fields, so the field lemmas apply to every constructor. -/
theorem fields_of_encode (i : Instr) : Statement i := fun _ =>
  ⟨opField_joinFields .., mField_joinFields .., opdField_joinFields ..⟩

theorem eoc (m : BitVec 1) (x : BitVec 11) : Statement (.eoc m x) := fields_of_encode _
theorem load (v : Operand) : Statement (.load v) := fields_of_encode _
theorem store (m : BitVec 1) (a : Addr) : Statement (.store m a) := fields_of_encode _
theorem read (m : BitVec 1) (a : Addr) : Statement (.read m a) := fields_of_encode _
theorem write (m : BitVec 1) (a : Addr) : Statement (.write m a) := fields_of_encode _
theorem add (v : Operand) : Statement (.add v) := fields_of_encode _
theorem sub (v : Operand) : Statement (.sub v) := fields_of_encode _
theorem mul (v : Operand) : Statement (.mul v) := fields_of_encode _
theorem div (v : Operand) : Statement (.div v) := fields_of_encode _
theorem mod (v : Operand) : Statement (.mod v) := fields_of_encode _
theorem neg (m : BitVec 1) (x : BitVec 11) : Statement (.neg m x) := fields_of_encode _
theorem nop (m : BitVec 1) (x : BitVec 11) : Statement (.nop m x) := fields_of_encode _
theorem jump (m : BitVec 1) (t : Addr) : Statement (.jump m t) := fields_of_encode _
theorem jneg (m : BitVec 1) (t : Addr) : Statement (.jneg m t) := fields_of_encode _
theorem jzero (m : BitVec 1) (t : Addr) : Statement (.jzero m t) := fields_of_encode _
theorem halt (m : BitVec 1) (x : BitVec 11) : Statement (.halt m x) := fields_of_encode _

end Sys2Proof.Laws.EncodedFields
end

