-- ==== Sys2Proof/Tests/Slice0.lean ====
section
/-! SUPPORT. The model's own tests: expected values come from spec/95_test_vectors.md (the vector is named) or are worked
out by hand from the rule named; and a witness for the hypotheses of each statement. -/

namespace Sys2Proof.Tests

open Sys2Proof.Machine

/-! ## Helpers -/

/-- The next state, if there is one. -/
def after : Result → Option State
  | .next t => some t
  | .fault _ => none
  | .refused _ => none

/-- A running core in the default build with memory `m`. -/
def running (m : Memory) : State := { State.reset with mem := m, status := .run }

/-- A running core of the narrow build, DATA_HI = 2038. -/
def narrow (m : Memory) : State := { running m with cfg := { defaultBuild with dataHi := .to2038 } }

/-- An opcode map that numbers STORE and READ alike, so that OP = 2 has STORE's row and OP = 3 none. -/
def badMap : OpcodeMap := { OpcodeMap.default with read := 2 }

/-- A running core whose build has the ill-formed map. -/
def badBuild (m : Memory) : State := { running m with cfg := { defaultBuild with opcodeMap := badMap } }

/-- STATUS and ERRCODE after a result. -/
def ending (r : Result) : Option (Status × BitVec 3) := (after r).map fun t => (t.status, t.errcode)

/-- ACC after a result. -/
def accOf (r : Result) : Option Word := (after r).map (·.acc)

/-- PC after a result. -/
def pcOf (r : Result) : Option Addr := (after r).map (·.pc)

/-- One memory word after a result. -/
def wordAt (a : Addr) (r : Result) : Option Word := (after r).map (·.memRead a)

/-- The output log after a result. -/
def logOf (r : Result) : Option (List Word) := (after r).map (·.outLog)

/-- A look at the input port that shows a word. -/
def shows (w : Word) : InPins := { inValid := true, inData := w, inEnd := false }

/-- A look at the input port that shows nothing. -/
def showsNothing : InPins := { inValid := false, inData := 0, inEnd := false }

/-! ## Well-formedness: a term each check refuses -/

theorem test_default_map_wf : OpcodeMap.default.wf = true := by decide
theorem test_map_twice_refused : badMap.wf = false := by decide
theorem test_map_reserved_number_refused : ({ OpcodeMap.default with nop := 15 } : OpcodeMap).wf = false := by decide
theorem test_build_refused : ({ defaultBuild with opcodeMap := badMap } : Config).wf = false := by decide
theorem test_asm_immediate_store_refused : (AsmLine.mk .store (.hash 5)).wf = false := by decide
theorem test_asm_immediate_range_refused : (AsmLine.mk .load (.hash 2048)).wf = false := by decide
theorem test_asm_address_range_refused : (AsmLine.mk .load (.plain 2048)).wf = false := by decide
theorem test_asm_data_range_refused : (AsmLine.mk .write (.plain 2048)).wf = false := by decide
theorem test_asm_code_range_refused : (AsmLine.mk .jump (.plain 2048)).wf = false := by decide
theorem test_asm_missing_operand_refused : (AsmLine.mk .load .absent).wf = false := by decide
theorem test_asm_operand_of_halt_refused : (AsmLine.mk .halt (.plain 0)).wf = false := by decide

/-! ## Decoding: a word written out from R45 and R49 for each instruction -/

theorem test_decode_eoc : decode .default 0b0000_0_01010111100#16 = .ok (.eoc 0 700) := by decide
theorem test_decode_load : decode .default 0b0001_1_00000000101#16 = .ok (.load (.imm 5)) := by decide
theorem test_decode_store : decode .default 0b0010_0_11111111111#16 = .ok (.store 0 2047) := by decide
theorem test_decode_read : decode .default 0b0011_0_10000000001#16 = .ok (.read 0 1025) := by decide
theorem test_decode_write : decode .default 0b0100_0_10000000000#16 = .ok (.write 0 1024) := by decide
theorem test_decode_add : decode .default 0b0101_0_10000000001#16 = .ok (.add (.mem 1025)) := by decide
theorem test_decode_sub : decode .default 0b0110_1_00000000010#16 = .ok (.sub (.imm 2)) := by decide
theorem test_decode_mul : decode .default 0b0111_1_00000000110#16 = .ok (.mul (.imm 6)) := by decide
theorem test_decode_div : decode .default 0b1000_1_00000000000#16 = .ok (.div (.imm 0)) := by decide
theorem test_decode_mod : decode .default 0b1001_1_00000000111#16 = .ok (.mod (.imm 7)) := by decide
theorem test_decode_neg : decode .default 0b1010_0_11111111111#16 = .ok (.neg 0 2047) := by decide
theorem test_decode_nop : decode .default 0b1011_0_00000000000#16 = .ok (.nop 0 0) := by decide
theorem test_decode_jump : decode .default 0b1100_1_00000000100#16 = .ok (.jump 1 4) := by decide
theorem test_decode_jneg : decode .default 0b1101_0_00000000100#16 = .ok (.jneg 0 4) := by decide
theorem test_decode_jzero : decode .default 0b1110_0_00000001101#16 = .ok (.jzero 0 13) := by decide
theorem test_decode_halt : decode .default 0b1111_1_11111111111#16 = .ok (.halt 1 2047) := by decide

/-- Under an ill-formed map a word may have no row (R64). -/
theorem test_decode_no_row : decode badMap 0x3400#16 = .error (.noRow 3) := by decide

/-- The table's word of LOAD #5 and a word of too many bits. -/
theorem test_table_word : decodeTableWord 16 0x1805 = some (.load (.imm 5)) ∧ decodeTableWord 32 0x1805 = none := by
  decide

/-- S8: LOAD #5 is 0x1805. -/
theorem test_encode_load : encode .default (.load (.imm 5)) = 0x1805 := by decide

/-- R52: `JZERO 13` and `HALT`. -/
theorem test_assemble :
    (AsmLine.mk .jzero (.plain 13)).instr?.map (encode .default) = some 0xE00D ∧
    (AsmLine.mk .halt .absent).instr?.map (encode .default) = some 0xF000 := by decide

/-! ## Instructions -/

/-- DT3, DT4. -/
theorem test_load : accOf (exec (.load (.imm 1024)) (running [])) = some 0x0400 ∧
    accOf (exec (.load (.mem 1024)) (running [(1024, 0xFFFF)])) = some 0xFFFF := by decide

/-- DT6. -/
theorem test_load_code_address : ending (exec (.load (.mem 5)) (running [])) = some (.faulted, 2) := by decide

/-- DT8: M is ignored. -/
theorem test_store : wordAt 1024 (exec (.store 1 1024) { running [] with acc := 0x0042 }) = some 0x0042 := by decide

/-- DT10, DT11. -/
theorem test_store_bound : ending (exec (.store 0 2039) (narrow [])) = some (.faulted, 2) ∧
    wordAt 2039 (exec (.store 0 2039) { running [] with acc := 1 }) = some 1 := by decide

/-- IO1. -/
theorem test_read : wordAt 1025 (exec (.read 0 1025) { running [] with inStream := [shows 0x0014] }) = some 0x0014 := by
  decide

/-- IO4, and R67: in_end wins over in_valid. -/
theorem test_read_end :
    ending (exec (.read 0 1024) { running [] with inStream := [{ shows 7 with inEnd := true }] }) = some (.faulted, 4) := by
  decide

/-- IO6. -/
theorem test_write : logOf (exec (.write 0 1024) (running [(1024, 0x0028)])) = some [0x0028] := by decide

/-- IO9. -/
theorem test_write_code_address : ending (exec (.write 0 0) (running [])) = some (.faulted, 2) := by decide

/-- A2, A4. -/
theorem test_add : accOf (exec (.add (.mem 1024)) { running [(1024, 1)] with acc := 0x7FFF }) = some 0x8000 ∧
    accOf (exec (.add (.imm 2047)) { running [] with acc := 0xF801 }) = some 0 := by decide

/-- A5, A7. -/
theorem test_sub : accOf (exec (.sub (.imm 1)) { running [] with acc := 0x8000 }) = some 0x7FFF ∧
    accOf (exec (.sub (.mem 1024)) (running [(1024, 0x8000)])) = some 0x8000 := by decide

/-- A9, A11. -/
theorem test_mul : accOf (exec (.mul (.imm 256)) { running [] with acc := 0x0100 }) = some 0 ∧
    accOf (exec (.mul (.imm 2047)) { running [] with acc := 0xFFFF }) = some 0xF801 := by decide

/-- V2, V3, V5. -/
theorem test_div : accOf (exec (.div (.imm 2)) { running [] with acc := 0xFFF9 }) = some 0xFFFD ∧
    accOf (exec (.div (.mem 1024)) { running [(1024, 0xFFFE)] with acc := 7 }) = some 0xFFFD ∧
    accOf (exec (.div (.mem 1024)) { running [(1024, 0xFFFF)] with acc := 0x8000 }) = some 0x8000 := by decide

/-- V9, V10: the address check comes before the zero check. -/
theorem test_div_faults : ending (exec (.div (.mem 1024)) (running [])) = some (.faulted, 3) ∧
    ending (exec (.div (.mem 5)) (running [])) = some (.faulted, 2) := by decide

/-- Q2, Q3, Q5. -/
theorem test_mod : accOf (exec (.mod (.imm 2)) { running [] with acc := 0xFFF9 }) = some 0xFFFF ∧
    accOf (exec (.mod (.mem 1024)) { running [(1024, 0xFFFE)] with acc := 7 }) = some 1 ∧
    accOf (exec (.mod (.mem 1024)) { running [(1024, 0xFFFF)] with acc := 0x8000 }) = some 0 := by decide

/-- Q8. -/
theorem test_mod_zero : ending (exec (.mod (.imm 0)) { running [] with acc := 5 }) = some (.faulted, 3) := by decide

/-- N2, N4; M and OPD are ignored. -/
theorem test_neg : accOf (exec (.neg 1 2047) { running [] with acc := 5 }) = some 0xFFFA ∧
    accOf (exec (.neg 0 0) { running [] with acc := 0x8000 }) = some 0x7FFF := by decide

/-- J1. -/
theorem test_nop : after (exec (.nop 0 0) (running [])) = some (running []) := by decide

/-- J3, J5. -/
theorem test_jump : pcOf (exec (.jump 1 4) (running [])) = some 4 ∧ pcOf (exec (.jump 0 1024) (running [])) = some 1024 := by
  decide

/-- J6, J9. -/
theorem test_jneg : pcOf (exec (.jneg 0 4) { running [] with acc := 0x8000, pc := 11 }) = some 4 ∧
    pcOf (exec (.jneg 0 4) { running [] with acc := 0x7FFF, pc := 11 }) = some 11 := by decide

/-- J10, J12. -/
theorem test_jzero : pcOf (exec (.jzero 0 4) { running [] with pc := 11 }) = some 4 ∧
    pcOf (exec (.jzero 0 4) { running [] with acc := 0x8000, pc := 11 }) = some 11 := by decide

/-- T3. -/
theorem test_eoc : ending (exec (.eoc 0 0x2BC) (running [])) = some (.halted, 0) := by decide

/-- T1. -/
theorem test_halt : ending (exec (.halt 0 0) (running [])) = some (.halted, 0) := by decide

/-! ## Steps -/

/-- S1, first step. -/
theorem test_step_load : after (step (running [(0, 0x1805), (1, 0xF000)])) =
    some { running [(0, 0x1805), (1, 0xF000)] with acc := 5, pc := 1, ir := 0x1805, op := 1, m := 1, opd := 5 } := by
  decide

/-- P3c: the frozen state of a READ that is answered with end. -/
theorem test_step_read_end :
    (after (step { running [(0, 0x3400)] with inStream := [endPins] })).map
      (fun t => (t.status, t.errcode, t.pc, t.ir, t.op, t.opd)) = some (.faulted, 4, 1, 0x3400, 3, 0x400) := by decide

/-- P5, second step: the guard leaves IR, OP, M and OPD. -/
theorem test_step_guard :
    after (step { running [(0, 0xC400)] with pc := 1024, ir := 0xC400, op := 12, opd := 0x400 }) =
      some { running [(0, 0xC400)] with
        pc := 1024, ir := 0xC400, op := 12, opd := 0x400, status := .faulted, errcode := 2 } := by decide

/-- P4: the frozen state names data address 5; P5: the frozen state names fetch address 1024. -/
theorem test_fault_reason :
    ((after (step { running [(1, 0x2005)] with pc := 1 })).bind faultReason) = some (.invalidAddress .data 5) ∧
    ((after (step { running [(0, 0xC400)] with pc := 1024, ir := 0xC400, op := 12, opd := 0x400 })).bind faultReason) =
      some (.invalidAddress .fetch 1024) := by decide

/-- 93 row 16: a reserved ERRCODE is refused. -/
theorem test_reserved_errcode : after (step { running [] with errcode := 5 }) = none := by decide

/-- R67: a held READ takes the word at a later look. -/
theorem test_held_read : wordAt 1024 (step { running [] with
    hold := .waitIn, inReady := true, pc := 1, ir := 0x3400, op := 3, opd := 1024, inStream := [shows 9] }) = some 9 := by
  decide

/-- R67, R105: in_ready stays 1 after a READ is answered, with a word or with the end. -/
theorem test_in_ready_after_read :
    (after (exec (.read 0 1025) { running [] with inStream := [shows 7] })).map (·.inReady) = some true ∧
    (after (exec (.read 0 1025) { running [] with inStream := [endPins] })).map (·.inReady) = some true := by decide

/-- R69: a held WRITE appends the word once it is taken. -/
theorem test_held_write : logOf (step { running [] with
    hold := .waitOut, outValid := true, outData := 9, pc := 1, ir := 0x4400, op := 4, opd := 1024 }) = some [9] := by decide

/-- The fetch word that the host places runs in the very next step. -/
theorem test_fetch_word : accOf (step (State.reset.withFetchWord 16 0x1805)) = some 5 := by decide

/-! ## Ports and load -/

/-- LD2: the program, and what READ will be answered with. -/
theorem test_boot : (boot [.word 0x1805, .word 0, .word 0xF000] State.reset).failure = none ∧
    (boot [.word 0x1805, .word 0, .word 0xF000] State.reset).state =
      { running [(0, 0x1805)] with inStream := [shows 0xF000, endPins] } := by decide

/-- LD3, LD4, LD6. -/
theorem test_boot_failures : (boot [.word 0x1805] State.reset).failure = some .loadError ∧
    (boot [.word 0] State.reset).failure = some .loadError ∧
    (boot [.malformed, .word 0xF000] State.reset).failure = some .inputError := by decide

/-- T4: start has no effect on a halted core, and rst leaves the state. -/
theorem test_halted_left_by_reset : start { running [] with status := .halted } = { running [] with status := .halted } ∧
    (assertReset { running [] with status := .halted }).status = .idle := by decide

/-- S7: the debug port at the end of S1. -/
theorem test_debug : (debugRead 1 { running [(0, 0x1805), (1, 0xF000)] with acc := 5, pc := 2, status := .halted }).mem =
    0xF000 ∧ (debugRead 0 { running [] with pc := 2 }).pc = 0x0002 := by decide

/-- IO8: both readings of 0xFFFF. -/
theorem test_render : renderWord .signed 0xFFFF = -1 ∧ renderWord .unsigned 0xFFFF = 65535 := by decide

/-! ## Witnesses: states and operands that meet the hypotheses of the statements -/

/-- A running core that has executed nothing meets the invariant, whatever canonical memory and input it has. -/
theorem running_inv (m : Memory) (hm : m.wf = true) (l : List InPins) : ({ running m with inStream := l } : State).Inv where
  cfgWf := (by decide : defaultBuild.wf = true)
  memWf := hm
  errcodeLegal := (by decide : (0 : BitVec 3).toNat ≤ 4)
  faulted_iff := ⟨fun h => absurd rfl h, nofun⟩
  fields := (by decide : (0 : BitVec 4) = opField 0 ∧ (0 : BitVec 1) = mField 0 ∧ (0 : BitVec 11) = opdField 0)
  halted_terminal := nofun
  hold_run := fun h => absurd rfl h
  waitIn_pending := nofun
  waitOut_pending := nofun
  outValid_iff := ⟨nofun, nofun⟩
  idle_clean := nofun
  served := by
    intro _ i a hd hi
    have he : decode OpcodeMap.default 0 = .ok (.eoc 0 0) := by decide
    have hd' : decode OpcodeMap.default 0 = .ok i := hd
    rw [he] at hd'
    cases hd'
    cases hi

/-- A core holding a READ to 1024. -/
def heldRead (l : List InPins) : State :=
  { running [(0, 0x3400)] with
    pc := 1, ir := 0x3400, op := 3, opd := 1024, hold := .waitIn, inReady := true, inStream := l }

/-- A core holding a WRITE from 1024. -/
def heldWrite (ready : Bool) : State :=
  { running [(0, 0x4400), (1024, 9)] with
    pc := 1, ir := 0x4400, op := 4, opd := 1024, hold := .waitOut, outValid := true, outData := 9, outReady := ready }

theorem heldRead_inv (l : List InPins) : (heldRead l).Inv where
  cfgWf := (by decide : defaultBuild.wf = true)
  memWf := (by decide : Memory.wf [(0, 0x3400)] = true)
  errcodeLegal := (by decide : (0 : BitVec 3).toNat ≤ 4)
  faulted_iff := ⟨fun h => absurd rfl h, nofun⟩
  fields :=
    (by decide : (3 : BitVec 4) = opField 0x3400 ∧ (0 : BitVec 1) = mField 0x3400 ∧ (1024 : BitVec 11) = opdField 0x3400)
  halted_terminal := nofun
  hold_run := fun _ => rfl
  waitIn_pending := fun _ =>
    ⟨rfl, (by decide : InData defaultBuild 1024), 0,
      (by decide : decode OpcodeMap.default 0x3400 = .ok (.read 0 1024))⟩
  waitOut_pending := nofun
  outValid_iff := ⟨nofun, nofun⟩
  idle_clean := nofun
  served := by
    intro _ i a hd hi
    have he : decode OpcodeMap.default 0x3400 = .ok (.read 0 1024) := by decide
    have hd' : decode OpcodeMap.default 0x3400 = .ok i := hd
    rw [he] at hd'
    cases hd'
    cases hi
    exact (by decide : InData defaultBuild 1024)

theorem witness_DecodeOfEncodeIsTheInstruction : OpcodeMap.default.wf = true := by decide

theorem witness_EncodeOfDecodeIsTheWord : decode .default 0x1805 = .ok (.load (.imm 5)) := by decide

theorem witness_EveryWordIsADefinedInstruction :
    (running []).cfg.wf = true ∧ (running []).errcode ≠ 1 ∧ ∃ t, step (running []) = .next t :=
  ⟨by decide, by decide, _, rfl⟩

theorem witness_WordReadsBackAfterWrite : (running [(1024, 1)]).mem.wf = true := by decide

theorem witness_CanonicalMemoryIsDeterminedByItsWords : (running [(1024, 1)]).mem.wf = true ∧
    ∀ a : Addr, (running [(1024, 1)]).memRead a = (narrow [(1024, 1)]).memRead a := ⟨by decide, fun _ => rfl⟩

/-- The bound of each build: the last address inside and the first outside. -/
theorem witness_DataAddressIsValidatedEverywhere :
    validateData 1024 (running []) = .ok () ∧ validateData 2047 (running []) = .ok () ∧
    validateData 1023 (running []) ≠ .ok () ∧ validateData 2038 (narrow []) = .ok () ∧
    validateData 2039 (narrow []) ≠ .ok () ∧ (Instr.add (.mem 1023)).dataAddr? = some 1023 ∧
    (Instr.read 0 2039).dataAddr? = some 2039 := by decide

theorem witness_DataAccessNeverReachesCode : (1023 : Addr).toNat ≤ 1023 := by decide

theorem witness_RunNeverWritesOutsideTheDataRegion :
    ∃ s t : State, s.Inv ∧ Reaches s t ∧ t.memRead 1024 ≠ s.memRead 1024 ∧
      ¬ (1024 ≤ (1023 : Addr).toNat ∧ (1023 : Addr).toNat ≤ dataHi s.cfg) :=
  ⟨{ running [(0, 0x3400)] with inStream := [shows 9] }, _, running_inv _ (by decide) _, .step (.refl _) rfl, by decide,
    by decide⟩

/-- Two cores of the narrow build that differ at 2039 only. -/
theorem witness_UnreachableWordsDoNotMatter :
    AgreeReachable (narrow [(0, 0xB000)]) (narrow [(0, 0xB000), (2039, 1)]) ∧
    ∃ t, step (narrow [(0, 0xB000)]) = .next t := by
  refine ⟨⟨rfl, fun a ha => ?_⟩, _, rfl⟩
  have hne : ¬ (2039 = a.toNat) := by
    intro h
    rcases ha with ha | ha
    · unfold codeHi at ha; omega
    · have h2 : a.toNat ≤ 2038 := ha.2
      omega
  show Memory.read [(0, 0xB000), (2039, 1)] a.toNat = Memory.read [(0, 0xB000)] a.toNat
  simp only [Memory.read, if_neg hne]

/-- The premises of a statement about a step that fetches, but for PC. -/
abbrev Fetches (s : State) : Prop := s.errcode.toNat ≤ 4 ∧ s.status = .run ∧ s.hold = .noHold

theorem witness_FetchGuardFaults :
    Fetches { running [] with pc := 1024 } ∧ 1024 ≤ (1024 : Addr).toNat := by decide

theorem witness_StepRunsTheDecodedInstruction :
    Fetches { running [(1023, 0xB000)] with pc := 1023 } ∧ (1023 : Addr).toNat ≤ 1023 ∧
    decode .default (({ running [(1023, 0xB000)] with pc := 1023 } : State).memRead 1023) = .ok (.nop 0 0) := by decide

theorem witness_OpWithoutARowIsInvalidOpcode :
    Fetches (badBuild [(0, 0x3400)]) ∧ (badBuild [(0, 0x3400)]).pc.toNat ≤ 1023 ∧
    decode (badBuild [(0, 0x3400)]).cfg.opcodeMap ((badBuild [(0, 0x3400)]).memRead 0) = .error (.noRow 3) := by decide

theorem witness_TerminalWordHalts : Fetches (running []) ∧ Fetches (running [(0, 0xFFFF)]) ∧
    (running []).pc.toNat ≤ 1023 ∧ ((running []).memRead 0).toNat / 4096 = 0 ∧
    ((running [(0, 0xFFFF)]).memRead 0).toNat / 4096 = 15 := by decide

theorem witness_HaltedAndFaultedAreAbsorbing :
    ({ running [] with status := .halted } : State).status ≠ .run ∧
    ({ running [] with status := .faulted, errcode := 3 } : State).errcode.toNat ≤ 4 := by decide

theorem witness_StepAlwaysAnswersUnlessErrcodeIsReserved :
    (4 : BitVec 3).toNat ≤ 4 ∧ 5 ≤ (5 : BitVec 3).toNat := by decide

/-- The edges of both data regions, for every statement with a data address (LOAD, STORE, READ, WRITE, the divisor). -/
theorem witness_data_addresses :
    InData (running []).cfg 1024 ∧ InData (running []).cfg 2047 ∧ ¬ InData (running []).cfg 1023 ∧
    InData (narrow []).cfg 2038 ∧ ¬ InData (narrow []).cfg 2039 := by decide

theorem witness_LoadWritesTheAccumulator :
    InData (running []).cfg 1024 ∧ InData (running []).cfg 2047 ∧ ¬ InData (running []).cfg 1023 := by decide

theorem witness_StoreWritesTheAccumulatorToMemory :
    (narrow []).mem.wf = true ∧ InData (narrow []).cfg 2038 ∧ ¬ InData (narrow []).cfg 2039 := by decide

theorem witness_ReadStoresTheAnsweredWord :
    (running []).mem.wf = true ∧ InData (running []).cfg 1024 ∧
    ({ running [] with inStream := [shows 5] } : State).inStream = shows 5 :: [] ∧ (shows 5).inEnd = false ∧
    (shows 5).inValid = true ∧ endPins.inEnd = true := by decide

theorem witness_ReadHoldsUntilAnswered :
    (running []).inStream = [] ∧ showsNothing.inEnd = false ∧ showsNothing.inValid = false ∧
    (heldRead []).errcode.toNat ≤ 4 ∧ (heldRead []).status = .run ∧ (heldRead []).hold = .waitIn ∧
    InData (heldRead []).cfg (heldRead []).opd := by decide

theorem witness_WriteEmitsTheDataWord :
    (running []).outReady = true ∧ InData (running []).cfg 2047 ∧ ¬ InData (running []).cfg 0 := by decide

theorem witness_WriteHoldsUntilTaken :
    (heldWrite false).outReady = false ∧ (heldWrite true).outReady = true ∧ (heldWrite true).hold = .waitOut ∧
    (heldWrite true).status = .run ∧ (heldWrite true).errcode.toNat ≤ 4 := by decide

/-- Operands of ADD, SUB, MUL, DIV and MOD: one that resolves to -1, one that resolves to zero, one that fails. -/
theorem witness_operands :
    ResolvesTo (running [(1024, 0xFFFF)]) (.mem 1024) 0xFFFF ∧ ResolvesTo (running []) (.imm 0) 0 ∧
    ResolvesTo (running []) (.imm 2047) 0x07FF ∧ ResolveFails (running []) (.mem 1023) :=
  ⟨⟨by decide, rfl⟩, rfl, rfl, (by decide : ¬ InData defaultBuild 1023)⟩

/-- A dividend for each clause of DIV and MOD: the quotient that wraps, and one that does not. -/
theorem witness_dividends :
    (({ running [] with acc := 0x8000 } : State).acc = 0x8000 ∧ (0xFFFF : Word) = 0xFFFF) ∧
    ¬ ((running []).acc = 0x8000 ∧ (0xFFFF : Word) = 0xFFFF) := by decide

/-- One operand that resolves, and one that fails. -/
theorem witness_AddWrapsTheSignedSum :
    ResolvesTo (running [(1024, 0xFFFF)]) (.mem 1024) 0xFFFF ∧ ResolveFails (running []) (.mem 1023) :=
  ⟨witness_operands.1, witness_operands.2.2.2⟩

theorem witness_SubWrapsTheSignedDifference :
    ResolvesTo (running []) (.imm 2047) 0x07FF ∧ ResolveFails (running []) (.mem 1023) := witness_operands.2.2

theorem witness_MulKeepsTheLowHalf :
    ResolvesTo (running [(1024, 0xFFFF)]) (.mem 1024) 0xFFFF ∧ ResolveFails (running []) (.mem 1023) :=
  ⟨witness_operands.1, witness_operands.2.2.2⟩

/-- The divisor -1 under each dividend, a zero divisor, and an operand that fails. -/
theorem witness_DivTruncatesTowardZero :
    (∃ s : State, ResolvesTo s (.mem 1024) 0xFFFF ∧ s.acc = 0x8000) ∧
    (∃ s : State, ResolvesTo s (.mem 1024) 0xFFFF ∧ s.acc ≠ 0x8000) ∧
    ResolvesTo (running []) (.imm 0) 0 ∧ ResolveFails (running []) (.mem 1023) :=
  ⟨⟨{ running [(1024, 0xFFFF)] with acc := 0x8000 }, witness_operands.1, rfl⟩,
    ⟨running [(1024, 0xFFFF)], witness_operands.1, by decide⟩, witness_operands.2.1, witness_operands.2.2.2⟩

theorem witness_ModTakesTheDividendsSign :
    (∃ s : State, ResolvesTo s (.mem 1024) 0xFFFF ∧ s.acc = 0x8000 ∧ s.acc.toInt ≤ 0) ∧
    (∃ s : State, ResolvesTo s (.mem 1024) 0xFFFF ∧ s.acc ≠ 0x8000 ∧ 0 ≤ s.acc.toInt) ∧
    ResolvesTo (running []) (.imm 0) 0 ∧ ResolveFails (running []) (.mem 1023) :=
  ⟨⟨{ running [(1024, 0xFFFF)] with acc := 0x8000 }, witness_operands.1, rfl, by decide⟩,
    ⟨running [(1024, 0xFFFF)], witness_operands.1, by decide⟩, witness_operands.2.1, witness_operands.2.2.2⟩

theorem witness_ZeroDivisorFaults : InData (running []).cfg 1024 ∧ (running []).memRead 1024 = 0 := by decide

theorem witness_NopChangesNothing :
    Fetches (running [(0, 0xB000)]) ∧ decode .default ((running [(0, 0xB000)]).memRead 0) = .ok (.nop 0 0) ∧ (running [(0, 0xB000)]).pc.toNat ≤ 1023 := by
  decide

theorem witness_JumpSetsPc : Fetches (running []) ∧ 1024 ≤ (1024 : Addr).toNat := by decide

theorem witness_JnegJumpsWhenNegative : (0xFFFF : Word).toInt < 0 ∧ 0 ≤ (0 : Word).toInt := by decide

theorem witness_JzeroJumpsWhenZero : (running []).acc = 0 ∧ ({ running [] with acc := 1 } : State).acc ≠ 0 := by decide

theorem witness_StepKeepsTheInvariant : ∃ s t : State, s.Inv ∧ step s = .next t ∧ t.status = .halted :=
  ⟨_, _, running_inv [] (by decide) [], rfl, rfl⟩

theorem witness_PortsKeepTheInvariant : ∃ s : State, s.Inv ∧ s.hold = .waitIn := ⟨_, heldRead_inv [], rfl⟩

/-- A step for each clause: one that writes ACC, a STORE, an answered READ that was held, and a WRITE. -/
theorem witness_StepWritesOneOfAccMemOutput :
    (∃ s t : State, s.Inv ∧ step s = .next t ∧ t.acc ≠ s.acc) ∧
    (∃ s t : State, s.Inv ∧ step s = .next t ∧ decode s.cfg.opcodeMap t.ir = .ok (.store 0 2047) ∧ t.opd = 2047) ∧
    (∃ s t : State, s.Inv ∧ s.hold = .waitIn ∧ step s = .next t ∧ t.memRead 1024 ≠ s.memRead 1024) ∧
    (∃ s t : State, s.Inv ∧ step s = .next t ∧ t.outLog ≠ s.outLog) :=
  ⟨⟨_, _, running_inv [(0, 0x1805)] (by decide) [], rfl, by decide⟩,
    ⟨_, _, running_inv [(0, 0x27FF)] (by decide) [], rfl, by decide, by decide⟩,
    ⟨_, _, heldRead_inv [shows 9], rfl, rfl, by decide⟩,
    ⟨_, _, running_inv [(0, 0x4400)] (by decide) [], rfl, by decide⟩⟩

/-- A fault of the guard, one in Execute and one of a held READ. -/
theorem witness_FaultsArePrecise :
    (ending (step { running [] with pc := 1024 }) = some (.faulted, 2)) ∧
    (ending (step (running [(0, 0x8800)])) = some (.faulted, 3)) ∧
    (ending (step (heldRead [endPins])) = some (.faulted, 4)) := by decide

theorem witness_FrozenStateIdentifiesTheError :
    (∃ s t : State, s.Inv ∧ s.status = .run ∧ step s = .next t ∧ t.errcode = 2) ∧
    (∃ s t : State, s.Inv ∧ s.status = .run ∧ step s = .next t ∧ t.errcode = 3) ∧
    (∃ s t : State, s.Inv ∧ s.status = .run ∧ s.hold = .waitIn ∧ step s = .next t ∧ t.errcode = 4) :=
  ⟨⟨_, _, running_inv [(0, 0x2005)] (by decide) [], rfl, rfl, rfl⟩,
    ⟨_, _, running_inv [(0, 0x8800)] (by decide) [], rfl, rfl, rfl⟩,
    ⟨_, _, heldRead_inv [endPins], rfl, rfl, rfl, rfl⟩⟩

/-- A step of an idle core, one that goes on and one that halts. -/
theorem witness_StatusChangesOnlyFromRun :
    ending (step State.reset) = some (.idle, 0) ∧ ending (step (running [(0, 0xB000)])) = some (.run, 0) ∧
    ending (step (running [])) = some (.halted, 0) := by decide

/-- A held step, a fetch from the last code address, a JUMP, and JNEG with its test true and false. -/
theorem witness_PcChangesOnlyByFetchAndJumps :
    pcOf (step (heldRead [])) = some 1 ∧ pcOf (step { running [(1023, 0xB000)] with pc := 1023 }) = some 1024 ∧
    pcOf (step (running [(0, 0xC7FF)])) = some 2047 ∧
    pcOf (step { running [(0, 0xD400)] with acc := 0xFFFF }) = some 1024 ∧
    pcOf (step (running [(0, 0xD400)])) = some 1 := by decide

theorem witness_OutputIsAppendOnly : ∃ s t : State, Reaches s t ∧ t.outLog ≠ s.outLog :=
  ⟨heldWrite true, _, .step (.refl _) rfl, by decide⟩

theorem witness_LoadPortWritesOnlyWhileIdle : State.reset.mem.wf = true ∧ State.reset.status = .idle ∧
    (running []).status ≠ .idle := by decide

theorem witness_ClearingThroughTheLoadPort :
    ({ State.reset with mem := [(7, 7)] } : State).mem.wf = true ∧ State.reset.status = .idle := by decide

/-- `n` non-zero words. -/
def words (n : Nat) : List Word := List.replicate n 1

theorem words_length (n : Nat) : (words n).length = n := List.length_replicate

theorem words_ne_zero (n : Nat) : ∀ w ∈ words n, w ≠ 0 := by
  intro w hw
  rw [List.eq_of_mem_replicate hw]
  decide

/-- The longest stream of each clause of the copy rule, and one that is too long. -/
theorem witness_LoaderCopiesUpToTheTerminator :
    (∀ w ∈ words 1023, w ≠ 0) ∧ (words 1023).length ≤ 1023 ∧ (∀ w ∈ words 1024, w ≠ 0) ∧ (words 1024).length ≤ 1024 ∧
    ¬ (words 1025).length ≤ 1024 :=
  ⟨words_ne_zero _, (words_length _).le, words_ne_zero _, (words_length _).le, by rw [words_length]; decide⟩

/-- Sizes n on both sides of both bounds, without a terminator and with one that is counted. -/
theorem witness_ProgramSizeIsChecked :
    (∀ n, ∀ w ∈ words n, w ≠ 0) ∧
    (¬ 2 ≤ (words 1).length ∧ 2 ≤ (words 2).length ∧ (words 1024).length ≤ 1024 ∧ ¬ (words 1025).length ≤ 1024) ∧
    (¬ 2 ≤ (words 0).length + 1 ∧ 2 ≤ (words 1).length + 1 ∧ (words 1023).length + 1 ≤ 1024 ∧
      ¬ (words 1024).length + 1 ≤ 1024) := by
  simp only [words_length]
  exact ⟨words_ne_zero, by decide, by decide⟩

theorem witness_StartActsOnlyWhileIdle : State.reset.status = .idle ∧ (running []).status ≠ .idle := by decide

theorem witness_StartStateOfARun : (boot [.word 0x1805, .word 0xF000] State.reset).failure = none := by decide

/-- The state a boot of READ 1024 and HALT leaves: the load ended at the end of the stream, and the READ comes next. -/
theorem witness_InputFollowsTheProgram :
    (boot [.word 0x3400, .word 0xF000] State.reset).failure = none ∧
    (copyProgram 1024 [.word 0x3400, .word 0xF000]).rest = .ok [] ∧
    ∃ t, Reaches (boot [.word 0x3400, .word 0xF000] State.reset).state t ∧ t.status = .run ∧ t.hold = .noHold ∧
      t.pc.toNat ≤ 1023 ∧ decode t.cfg.opcodeMap (t.memRead t.pc) = .ok (.read 0 1024) ∧ InData t.cfg 1024 :=
  ⟨by decide, by decide, _, .refl _, by decide⟩

theorem witness_FailedLoadStaysIdle : (boot [.word 0x1805] State.reset).failure ≠ none := by decide

theorem witness_DebugPortShowsEverything : ∀ a : Addr, debugRead a (running []) = debugRead a (narrow []) := fun _ => rfl

theorem witness_StatusPortDrivesTheCodes :
    State.reset.status = .idle ∧ (running []).status = .run ∧
    (∃ s t : State, s.Inv ∧ step s = .next t ∧ t.status = .halted ∧ readStatus t = { status := 2, errcode := 0 }) ∧
    (∃ s t : State, s.Inv ∧ step s = .next t ∧ t.status = .faulted ∧ readStatus t = { status := 3, errcode := 3 }) :=
  ⟨rfl, rfl, ⟨_, _, running_inv [] (by decide) [], rfl, rfl, rfl⟩,
    ⟨_, _, running_inv [(0, 0x8800)] (by decide) [], rfl, rfl, rfl⟩⟩

end Sys2Proof.Tests
end

section
/-! The registers and the invariant (10_state.md): what every step and every port keeps, how STATUS and PC change, and
what the status port and the load port do. -/

namespace Sys2Proof.Machine

/-! ## Words and their fields -/

theorem opField_toNat (w : Word) : (opField w).toNat = w.toNat / 4096 := by
  simp only [opField, BitVec.extractLsb'_toNat, Nat.shiftRight_eq_div_pow]
  omega

/-- A word is terminal exactly when its four high bits are 0 or 15 (R59). -/
theorem terminal_iff_high_bits (w : Word) :
    (opField w = 0 ∨ opField w = 15) ↔ (w.toNat / 4096 = 0 ∨ w.toNat / 4096 = 15) := by
  rw [← BitVec.toNat_inj, ← BitVec.toNat_inj, opField_toNat]
  rfl

/-- The decoder answers EOC or HALT exactly for a terminal OP (R59). -/
theorem decoded_terminal_iff {k : OpcodeMap} {w : Word} {i : Instr} (h : decode k w = .ok i) :
    (i.mnemonic = .eoc ∨ i.mnemonic = .halt) ↔ (opField w = 0 ∨ opField w = 15) := by
  obtain ⟨hl, -, -⟩ := decode_ok h
  obtain ⟨heoc, hhalt⟩ := lookup_terminal (k := k) (op := opField w)
  rw [← heoc, ← hhalt, hl, Option.some_inj, Option.some_inj]

/-- A terminal OP has a row under every map. -/
theorem not_terminal_of_no_row {k : OpcodeMap} {op : BitVec 4} (h : k.lookup op = none) : ¬ (op = 0 ∨ op = 15) := by
  rintro (h0 | h15)
  · cases h.symm.trans (lookup_terminal.1.mpr h0)
  · cases h.symm.trans (lookup_terminal.2.mpr h15)

theorem decode_zero (k : OpcodeMap) : decode k 0 = .ok (.eoc 0 0) := rfl

theorem addr_succ_toNat {a : Addr} (h : a.toNat ≤ codeHi) : (a + 1).toNat = a.toNat + 1 := by
  simp only [codeHi] at h
  simp only [BitVec.toNat_add, BitVec.ofNat_eq_ofNat, BitVec.toNat_ofNat]
  omega

/-! ## Memory -/

/-- Settles O8: beyond the address space two canonical memories read alike anyway. -/
theorem canonicalMemoryIsDeterminedByItsWords : Obligations.CanonicalMemoryIsDeterminedByItsWords := by
  intro s t hs ht h
  refine eq_of_read_eq_from (lo := 0) s.mem t.mem hs ht fun a => ?_
  by_cases ha : a < memWords
  · have haddr : (BitVec.ofNat 11 a).toNat = a := Nat.mod_eq_of_lt ha
    have hword := h (BitVec.ofNat 11 a)
    rwa [State.memRead, State.memRead, haddr] at hword
  · rw [read_beyond s.mem hs (Nat.le_of_not_lt ha), read_beyond t.mem ht (Nat.le_of_not_lt ha)]

/-! ## Errors and ports -/

theorem errCode_ne_zero (e : Fault) : errCode e ≠ 0 := by
  cases e <;> simp [errCode]

theorem errCode_legal (e : Fault) : (errCode e).toNat ≤ 4 := by
  cases e <;> simp [errCode]

theorem outWrite_status (v : Word) (s : State) : (outWrite v s).status = s.status := by
  obtain ⟨-, -, -, -, -, -, -, -, hstatus, -⟩ := outWrite_frame v s
  exact hstatus

/-! ## The state inside a step

Between Decode and the end of Execute the invariant does not hold yet: the address in IR may still be refused. -/

/-- The instruction in IR names no data address outside the region (R33). -/
def Served (s : State) : Prop :=
  ∀ i a, decode s.cfg.opcodeMap s.ir = .ok i → i.dataAddr? = some a → InData s.cfg a

/-- What holds of a running core from Decode to the end of Execute, where no handshake is in progress. -/
structure Executing (s : State) : Prop where
  cfgWf : s.cfg.wf = true
  memWf : s.mem.wf = true
  running : s.status = .run
  noError : s.errcode = 0
  fields : s.op = opField s.ir ∧ s.m = mField s.ir ∧ s.opd = opdField s.ir
  noHold : s.hold = .noHold
  outLow : s.outValid = false

/-- The handshake in progress is taken back, as if the instruction in IR were executed anew. -/
def dropHold (s : State) : State := { s with hold := .noHold, outValid := false }

/-- A look at the input port does not depend on whether the core already waits for it. -/
theorem readInto_dropHold {s : State} (h : s.outValid = false) (a : Addr) :
    readInto a (dropHold s) = readInto a s := by
  cases s
  cases h
  rfl

/-- OutWrite does not depend on whether the core already waits for out_ready. -/
theorem outWrite_dropHold (v : Word) (s : State) : outWrite v (dropHold s) = outWrite v s := rfl

theorem served_of_decode {s : State} {i : Instr} (hd : decode s.cfg.opcodeMap s.ir = .ok i)
    (ha : ∀ a, i.dataAddr? = some a → InData s.cfg a) : Served s := by
  intro j a hj
  cases hd.symm.trans hj
  exact ha a

/-- An instruction that validated its address `b` serves IR. -/
theorem served_of_dataAddr {s : State} {i : Instr} {b : Addr} (hd : decode s.cfg.opcodeMap s.ir = .ok i)
    (hi : i.dataAddr? = some b) (hb : InData s.cfg b) : Served s :=
  served_of_decode hd fun a ha => by cases hi.symm.trans ha; exact hb

/-- An instruction that names no data address serves IR. -/
theorem served_of_no_dataAddr {s : State} {i : Instr} (hd : decode s.cfg.opcodeMap s.ir = .ok i)
    (hi : i.dataAddr? = none) : Served s :=
  served_of_decode hd fun a ha => by cases hi.symm.trans ha

namespace Executing

variable {s : State}

theorem memWrite (h : Executing s) (a : Addr) (w : Word) : Executing (s.memWrite a w) :=
  { h with memWf := memWrite_wf h.memWf a w }

/-- Execute ends with no handshake and no error: the core goes on. -/
theorem inv (h : Executing s) (hs : Served s) : s.Inv where
  cfgWf := h.cfgWf
  memWf := h.memWf
  errcodeLegal := by simp [h.noError]
  faulted_iff := by simp [h.noError, h.running]
  fields := h.fields
  halted_terminal := by simp [h.running]
  hold_run _ := h.running
  waitIn_pending := by simp [h.noHold]
  waitOut_pending := by simp [h.noHold]
  outValid_iff := by simp [h.outLow, h.noHold]
  idle_clean := by simp [h.running]
  served _ := hs

/-- Execute ends with an error (R93). -/
theorem raise_inv (h : Executing s) (e : Fault) : (raise e s).Inv where
  cfgWf := h.cfgWf
  memWf := h.memWf
  errcodeLegal := errCode_legal e
  faulted_iff := iff_of_true (errCode_ne_zero e) rfl
  fields := h.fields
  halted_terminal := nofun
  hold_run hh := absurd h.noHold hh
  waitIn_pending := by simp [h.noHold]
  waitOut_pending := by simp [h.noHold]
  outValid_iff := by simp [h.outLow, h.noHold]
  idle_clean := nofun
  served hf := absurd rfl hf

/-- Execute ends with the terminal test (R59). -/
theorem stop_inv (h : Executing s) (hs : Served s) (ht : s.op = 0 ∨ s.op = 15) : (stop s).Inv :=
  { h.inv hs with
    faulted_iff := iff_of_false (absurd h.noError) nofun
    halted_terminal := fun _ => ht
    hold_run := absurd h.noHold
    idle_clean := nofun
    served := fun _ => hs }

/-- A READ that finds no answer holds (R67). -/
theorem holdIn_inv (h : Executing s) (ha : InData s.cfg s.opd) {b : BitVec 1}
    (hd : decode s.cfg.opcodeMap s.ir = .ok (.read b s.opd)) : (holdIn s).Inv :=
  { h.inv (served_of_dataAddr hd rfl ha) with
    hold_run := fun _ => h.running
    waitIn_pending := fun _ => ⟨rfl, ha, b, hd⟩
    waitOut_pending := nofun
    outValid_iff := by simp [h.outLow] }

/-- Every look of a READ at the input port ends in the invariant (R67, R68). -/
theorem readEffect_inv (h : Executing s) (ha : InData s.cfg s.opd) {b : BitVec 1}
    (hd : decode s.cfg.opcodeMap s.ir = .ok (.read b s.opd)) {t : State} (he : ReadEffect s.opd s t) : t.Inv := by
  cases he with
  | noLook => exact h.holdIn_inv ha hd
  | neither p rest =>
    have hx : Executing { s with inStream := rest } := { h with }
    exact hx.holdIn_inv ha hd
  | word p rest =>
    have hx : Executing { s.memWrite s.opd p.inData with inStream := rest, inReady := true, hold := .noHold } :=
      { h.memWrite s.opd p.inData with noHold := rfl }
    exact hx.inv (served_of_dataAddr hd rfl ha)
  | ended p rest =>
    have hx : Executing { s with inReady := true, hold := .noHold } := { h with noHold := rfl }
    exact hx.raise_inv _

/-- The word of a WRITE, taken or not yet, ends in the invariant (R69, R70). -/
theorem outWrite_inv (h : Executing s) (ha : InData s.cfg s.opd) {b : BitVec 1}
    (hd : decode s.cfg.opcodeMap s.ir = .ok (.write b s.opd)) : (outWrite (s.memRead s.opd) s).Inv := by
  have hs : Served s := served_of_dataAddr hd rfl ha
  cases hr : s.outReady with
  | true =>
    rw [outWrite_taken hr]
    exact inv { h with noHold := rfl, outLow := rfl } hs
  | false =>
    rw [outWrite_waits hr]
    exact
      { h.inv hs with
        hold_run := fun _ => h.running
        waitIn_pending := nofun
        waitOut_pending := fun _ => ⟨rfl, ha, b, hd⟩
        outValid_iff := iff_of_true rfl rfl }

/-- OPD is the operand of the instruction in IR (R58). -/
theorem opd_of_decode (h : Executing s) {i : Instr} (hd : decode s.cfg.opcodeMap s.ir = .ok i) : i.opd = s.opd := by
  obtain ⟨-, -, hopd⟩ := h.fields
  obtain ⟨-, -, hi⟩ := decode_ok hd
  rw [hi, hopd]

/-- Whatever the instruction in IR does, it ends in the invariant. -/
theorem execEffect_inv (h : Executing s) {i : Instr} {t : State} (hd : decode s.cfg.opcodeMap s.ir = .ok i)
    (he : ExecEffect i s t) : t.Inv := by
  cases he with
  | badAddress => exact h.raise_inv _
  | zeroDivisor => exact h.raise_inv _
  | accumulator w hi ha => exact inv { h with } (served_of_decode hd ha)
  | store m a hi ha =>
    subst hi
    exact (h.memWrite a s.acc).inv (served_of_dataAddr hd rfl ha)
  | read m a hi ha =>
    subst hi
    obtain rfl : a = s.opd := h.opd_of_decode hd
    exact h.readEffect_inv ha hd (readInto_effect s.opd s)
  | write m a hi ha =>
    subst hi
    obtain rfl : a = s.opd := h.opd_of_decode hd
    exact h.outWrite_inv ha hd
  | jump hi ha => exact inv { h with } (served_of_no_dataAddr hd ha)
  | nothing hi ha => exact h.inv (served_of_no_dataAddr hd ha)
  | terminal hi ha =>
    obtain ⟨hop, -, -⟩ := h.fields
    refine h.stop_inv (served_of_no_dataAddr hd ha) ?_
    rw [hop]
    exact (decoded_terminal_iff hd).mp hi

end Executing

/-! ## From the invariant into a step -/

/-- A core that has not faulted shows no error (R22). -/
theorem errcode_eq_zero_of_not_faulted {s : State} (h : s.Inv) (hs : s.status ≠ .faulted) : s.errcode = 0 :=
  not_not.mp fun he => hs (h.faulted_iff.mp he)

/-- A running core whose handshake is taken back is inside the instruction in IR. -/
theorem executing_dropHold {s : State} (h : s.Inv) (hr : s.status = .run) : Executing (dropHold s) where
  cfgWf := h.cfgWf
  memWf := h.memWf
  running := hr
  noError := errcode_eq_zero_of_not_faulted (s := s) h (by simp [hr])
  fields := h.fields
  noHold := rfl
  outLow := rfl

theorem outValid_low_of_not_waitOut {s : State} (h : s.Inv) (hh : s.hold ≠ .waitOut) : s.outValid = false :=
  Bool.eq_false_iff.mpr fun hv => hh (h.outValid_iff.mp hv)

/-- A running core that does not hold. -/
theorem executing_of_noHold {s : State} (h : s.Inv) (hr : s.status = .run) (hh : s.hold = .noHold) : Executing s :=
  { executing_dropHold h hr with
    noHold := hh
    outLow := outValid_low_of_not_waitOut h (by simp [hh]) }

/-- Fetch and Decode write exactly the fields of the fetched word (R57, R58). -/
theorem executing_latch {s : State} (h : Executing s) (w : Word) : Executing (latch w s) :=
  { h with fields := ⟨rfl, rfl, rfl⟩ }

theorem step_inv {s t : State} (h : s.Inv) (hstep : step s = .next t) : t.Inv := by
  obtain ⟨-, heff⟩ := effect_of_step hstep
  cases heff with
  | stays => exact h
  | guard hr hh => exact (executing_of_noHold h hr hh).raise_inv _
  | noRow hr hh => exact (executing_latch (executing_of_noHold h hr hh) _).raise_inv _
  | instr i _ hr hh _ hd he => exact (executing_latch (executing_of_noHold h hr hh) _).execEffect_inv hd he
  | resumeIn hr hh =>
    obtain ⟨-, ha, b, hd⟩ := h.waitIn_pending hh
    rw [← readInto_dropHold (outValid_low_of_not_waitOut h (by simp [hh]))]
    exact (executing_dropHold h hr).readEffect_inv ha hd (readInto_effect _ _)
  | resumeOut hr hh =>
    obtain ⟨hout, ha, b, hd⟩ := h.waitOut_pending hh
    rw [hout, ← outWrite_dropHold]
    exact (executing_dropHold h hr).outWrite_inv ha hd

/-- Settles O39: each effect of a step is a way for the instruction in IR to end, or the state as it was. -/
theorem stepKeepsTheInvariant : Obligations.StepKeepsTheInvariant := fun _ _ => step_inv

/-! ## The ports -/

theorem start_idle {s : State} (h : s.status = .idle) : start s = { s with status := .run } := if_pos h

theorem start_not_idle {s : State} (h : s.status ≠ .idle) : start s = s := if_neg h

theorem loadPort_idle {s : State} (h : s.status = .idle) (a : Addr) (w : Word) : loadPort a w s = s.memWrite a w :=
  if_pos h

theorem loadPort_not_idle {s : State} (h : s.status ≠ .idle) (a : Addr) (w : Word) : loadPort a w s = s := if_neg h

theorem fields_zero : 0 = opField 0 ∧ 0 = mField 0 ∧ 0 = opdField 0 := by decide

/-- After `rst` the invariant rests on the build and on memory alone (R105). -/
theorem assertReset_inv {s : State} (hc : s.cfg.wf = true) (hm : s.mem.wf = true) : (assertReset s).Inv where
  cfgWf := hc
  memWf := hm
  errcodeLegal := Nat.zero_le _
  faulted_iff := iff_of_false (absurd rfl) nofun
  fields := fields_zero
  halted_terminal := nofun
  hold_run := absurd rfl
  waitIn_pending := nofun
  waitOut_pending := nofun
  outValid_iff := iff_of_false nofun nofun
  idle_clean _ := ⟨rfl, rfl, rfl, rfl⟩
  served _ := served_of_no_dataAddr (decode_zero _) rfl

theorem noHold_of_idle {s : State} (h : s.Inv) (hs : s.status = .idle) : s.hold = .noHold :=
  not_not.mp fun hh => by cases hs.symm.trans (h.hold_run hh)

theorem start_inv {s : State} (h : s.Inv) : (start s).Inv := by
  by_cases hs : s.status = .idle
  · have hne : s.status ≠ .faulted := by simp [hs]
    have herr : s.errcode = 0 := errcode_eq_zero_of_not_faulted h hne
    rw [start_idle hs]
    exact
      { h with
        faulted_iff := iff_of_false (absurd herr) nofun
        halted_terminal := nofun
        hold_run := fun _ => rfl
        idle_clean := nofun
        served := fun _ => h.served hne }
  · rwa [start_not_idle hs]

/-- An idle core may hold any canonical memory. -/
theorem idle_inv_of_mem {s : State} (h : s.Inv) (hs : s.status = .idle) {m : Memory} (hm : m.wf = true) :
    State.Inv { s with mem := m } :=
  { h with
    memWf := hm
    waitOut_pending := fun hw => by cases (noHold_of_idle h hs).symm.trans hw }

theorem loadPort_inv {s : State} (h : s.Inv) (a : Addr) (w : Word) : (loadPort a w s).Inv := by
  by_cases hs : s.status = .idle
  · rw [loadPort_idle hs]
    exact idle_inv_of_mem h hs (memWrite_wf h.memWf a w)
  · rwa [loadPort_not_idle hs]

theorem clearMemory_inv {s : State} (h : s.Inv) : (clearMemory s).Inv := by
  unfold clearMemory
  split_ifs with hs
  · exact idle_inv_of_mem h hs rfl
  · exact h

theorem loadWords_inv {s : State} (h : s.Inv) (i : Nat) (ws : List Word) : (loadWords i ws s).Inv := by
  induction ws generalizing i s with
  | nil => exact h
  | cons w ws ih => exact ih (loadPort_inv h _ w) (i + 1)

theorem driveInput_inv {s : State} (h : s.Inv) (p : InPins) : (driveInput p s).Inv := { h with }

theorem driveOutReady_inv {s : State} (h : s.Inv) (b : Bool) : (driveOutReady b s).Inv := { h with }

theorem feedInput_inv {s : State} (h : s.Inv) (rest : List Token) : (feedInput rest s).Inv := { h with }

/-- A boot keeps the invariant whether the load succeeds or fails (R106, R113). -/
theorem boot_inv {s : State} (h : s.Inv) (stream : List Token) : (boot stream s).state.Inv := by
  have hloaded : ∀ ws, (loadWords 0 ws (clearMemory (assertReset s))).Inv :=
    loadWords_inv (clearMemory_inv (assertReset_inv h.cfgWf h.memWf)) 0
  dsimp only [boot]
  split
  · exact hloaded _
  · split
    · exact start_inv (feedInput_inv (hloaded _) _)
    · exact hloaded _

/-- Settles O40: each port by its own lemma, the boot from those of the ports it uses. -/
theorem portsKeepTheInvariant : Obligations.PortsKeepTheInvariant := fun _ h =>
  ⟨assertReset_inv h.cfgWf h.memWf, start_inv h, loadPort_inv h, driveInput_inv h, driveOutReady_inv h, boot_inv h⟩

theorem defaultBuild_wf : defaultBuild.wf = true := by decide

/-- Settles O38: the reset state is one that `rst` leaves unchanged. -/
theorem resetMeetsTheInvariant : Obligations.ResetMeetsTheInvariant :=
  assertReset_inv (s := State.reset) defaultBuild_wf reset_mem_wf

/-- Settles O47: every register from `State.reset`, and every word from its empty memory. -/
theorem resetValues : Obligations.ResetValues :=
  ⟨rfl, rfl, rfl, rfl, rfl, rfl, rfl, rfl, fun _ => rfl⟩

/-- Settles O49, by the read-after-write rule of memory. -/
theorem loadPortWritesOnlyWhileIdle : Obligations.LoadPortWritesOnlyWhileIdle := by
  intro s a b w hm
  refine ⟨fun hs => ?_, fun hs => loadPort_not_idle hs a w⟩
  rw [loadPort_idle hs]
  exact ⟨rfl, memRead_memWrite hm a b w⟩

/-- Settles O17: outside RUN a step stays, and both ports act only while IDLE. -/
theorem haltedAndFaultedAreAbsorbing : Obligations.HaltedAndFaultedAreAbsorbing := by
  intro s hlegal
  refine ⟨step_stays hlegal, fun hend => ?_⟩
  have hs : s.status ≠ .idle := by rcases hend with h | h <;> simp [h]
  exact ⟨start_not_idle hs, loadPort_not_idle hs⟩

theorem statusBits_eq_three_iff (x : Status) : statusBits x = 3 ↔ x = .faulted := by
  cases x <;> decide

/-- Settles O58: the codes by the cases of STATUS, the rest by the invariant's rule for ERRCODE (R22). -/
theorem statusPortDrivesTheCodes : Obligations.StatusPortDrivesTheCodes := by
  refine ⟨fun s => ⟨congrArg statusBits, congrArg statusBits, congrArg statusBits, congrArg statusBits, rfl,
    fun _ => ⟨rfl, rfl⟩⟩, fun s h => ⟨?_, fun hs => ?_⟩⟩
  · exact h.faulted_iff.trans (statusBits_eq_three_iff s.status).symm
  · simp [readStatus, hs, statusBits, errcode_eq_zero_of_not_faulted h]

/-! ## STATUS and PC -/

/-- A look at the input port leaves STATUS, or faults. -/
theorem status_of_readEffect {a : Addr} {s t : State} (h : ReadEffect a s t) :
    t.status = s.status ∨ t.status = .faulted := by
  cases h with
  | ended => exact .inr rfl
  | _ => exact .inl rfl

/-- Neither EOC nor HALT names a data address. -/
theorem not_terminal_of_dataAddr {i : Instr} {a : Addr} (h : i.dataAddr? = some a) :
    ¬ (i.mnemonic = .eoc ∨ i.mnemonic = .halt) := by
  cases i with
  | eoc | halt => cases h
  | _ => simp [Instr.mnemonic]

/-- An instruction halts exactly when it is EOC or HALT; any other leaves STATUS or faults (R59). -/
theorem status_of_effect {i : Instr} {s t : State} (h : ExecEffect i s t) :
    ((i.mnemonic = .eoc ∨ i.mnemonic = .halt) ∧ t.status = .halted) ∨
    (¬ (i.mnemonic = .eoc ∨ i.mnemonic = .halt) ∧ (t.status = s.status ∨ t.status = .faulted)) := by
  cases h with
  | badAddress a hi => exact .inr ⟨not_terminal_of_dataAddr hi, .inr rfl⟩
  | zeroDivisor hi => exact .inr ⟨by rcases hi with h | h <;> simp [h], .inr rfl⟩
  | accumulator w hi => exact .inr ⟨not_or.mpr hi, .inl rfl⟩
  | store m a hi => exact .inr ⟨by simp [hi, Instr.mnemonic], .inl rfl⟩
  | read m a hi => exact .inr ⟨by simp [hi, Instr.mnemonic], status_of_readEffect (readInto_effect a s)⟩
  | write m a hi => exact .inr ⟨by simp [hi, Instr.mnemonic], .inl (outWrite_status _ s)⟩
  | jump hi => exact .inr ⟨by rcases hi with h | ⟨h, -⟩ | ⟨h, -⟩ <;> simp [h], .inl rfl⟩
  | nothing hi => exact .inr ⟨not_or.mpr hi, .inl rfl⟩
  | terminal hi => exact .inl ⟨hi, rfl⟩

/-- An instruction halts the core exactly for a terminal OP, and never idles it. -/
theorem status_of_executed {k : OpcodeMap} {w : Word} {i : Instr} {s t : State} (hd : decode k w = .ok i)
    (hr : s.status = .run) (h : ExecEffect i s t) :
    t.status ≠ .idle ∧ (t.status = .halted ↔ opField w = 0 ∨ opField w = 15) := by
  rw [← decoded_terminal_iff hd]
  rcases status_of_effect h with ⟨hi, ht⟩ | ⟨hi, ht | ht⟩ <;> simp [ht, hi, hr]

/-- Settles O44: STATUS after each effect of a step, and the OP of the fetched word read by number. -/
theorem statusChangesOnlyFromRun : Obligations.StatusChangesOnlyFromRun := by
  intro s t hstep
  obtain ⟨hlegal, heff⟩ := effect_of_step hstep
  refine ⟨fun hs => ?_, fun hrun => ?_⟩
  · cases (step_stays hlegal hs).symm.trans hstep
    rfl
  rw [← terminal_iff_high_bits]
  cases heff with
  | stays hs => exact absurd hrun hs
  | guard hr hh hp => exact ⟨nofun, iff_of_false nofun fun ⟨_, hpc, _⟩ => absurd hpc (Nat.not_le.mpr hp)⟩
  | noRow hr hh hp hd => exact ⟨nofun, iff_of_false nofun fun ⟨_, _, hop⟩ => not_terminal_of_no_row hd hop⟩
  | instr i _ hr hh hp hd he =>
    obtain ⟨hidle, hhalt⟩ := status_of_executed (s := latch (s.memRead s.pc) s) hd hr he
    exact ⟨hidle, hhalt.trans ⟨fun hop => ⟨hh, hp, hop⟩, fun ⟨_, _, hop⟩ => hop⟩⟩
  | resumeIn hr hh => rcases status_of_readEffect (readInto_effect s.opd s) with h | h <;> simp [h, hr, hh]
  | resumeOut hr hh => simp [outWrite_status, hr, hh]

/-- A step that fetches nothing leaves PC: the guard's fault and a resumed handshake do not write it (R15). -/
theorem pc_of_step_without_fetch {s t : State} (h : StepEffect s t)
    (hs : ¬ (s.status = .run ∧ s.hold = .noHold ∧ s.pc.toNat ≤ codeHi)) : t.pc = s.pc := by
  cases h with
  | stays => rfl
  | guard => rfl
  | noRow hr hh hp => exact absurd ⟨hr, hh, hp⟩ hs
  | instr i _ hr hh hp => exact absurd ⟨hr, hh, hp⟩ hs
  | resumeIn =>
    obtain ⟨-, -, hpc, -⟩ := readInto_frame s.opd s
    exact hpc
  | resumeOut =>
    obtain ⟨-, -, -, hpc, -⟩ := outWrite_frame s.outData s
    exact hpc

/-- A step that fetches leaves the target of a taken jump in PC, else the next address (R16, R80, R81, R82). -/
theorem pc_of_step_with_fetch {s t : State} (h : StepEffect s t) (hr : s.status = .run) (hh : s.hold = .noHold)
    (hp : s.pc.toNat ≤ codeHi) :
    (∃ i, decode s.cfg.opcodeMap (s.memRead s.pc) = .ok i ∧ JumpTaken i s ∧ t.pc = i.opd) ∨
    ((∀ i, decode s.cfg.opcodeMap (s.memRead s.pc) = .ok i → ¬ JumpTaken i s) ∧ t.pc = s.pc + 1) := by
  cases h with
  | stays hs => exact absurd hr hs
  | guard _ _ hp' => exact absurd hp (Nat.not_le.mpr hp')
  | noRow _ _ _ hd =>
    refine .inr ⟨fun i hi => ?_, rfl⟩
    obtain ⟨hl, -, -⟩ := decode_ok hi
    cases hd.symm.trans hl
  | instr i _ _ _ _ hd he =>
    rcases pc_of_effect he with ⟨hj, hpc⟩ | ⟨hj, hpc⟩
    · exact .inl ⟨i, hd, hj, hpc⟩
    · refine .inr ⟨fun j hd' => ?_, hpc⟩
      cases hd.symm.trans hd'
      exact hj
  | resumeIn _ hh' => cases hh.symm.trans hh'
  | resumeOut _ hh' => cases hh.symm.trans hh'

/-- Settles O45: below the guard's bound PC + 1 does not wrap. -/
theorem pcChangesOnlyByFetchAndJumps : Obligations.PcChangesOnlyByFetchAndJumps := by
  intro s t hstep
  obtain ⟨-, heff⟩ := effect_of_step hstep
  refine ⟨pc_of_step_without_fetch heff, fun hr hh hp => ?_⟩
  rcases pc_of_step_with_fetch heff hr hh hp with hjump | ⟨hno, hpc⟩
  · exact .inl hjump
  · exact .inr ⟨hno, by rw [hpc, addr_succ_toNat hp]⟩

end Sys2Proof.Machine
end

section
/-! Memory and its regions (20_memory.md): the address check before every data access, what a run leaves outside the
data region, and the words that no access reaches. -/

namespace Sys2Proof.Machine

/-! ## Read after write -/

/-- Settles O7, by the read-after-write rule and the canonical form of a written memory. -/
theorem wordReadsBackAfterWrite : Obligations.WordReadsBackAfterWrite := fun _ a b w h =>
  ⟨memRead_memWrite h a b w, memWrite_wf h a w⟩

/-! ## ValidateData -/

theorem dataHi_eq (c : Config) : dataHi c = if c.dataHi = .to2047 then 2047 else 2038 := by
  unfold dataHi
  cases c.dataHi <;> rfl

theorem validateData_ok_iff {a : Addr} {s : State} : validateData a s = .ok () ↔ InData s.cfg a := by
  refine ⟨fun h => ?_, validateData_ok⟩
  by_contra hbad
  cases (validateData_error hbad).symm.trans h

/-- With DATA_HI at the top of memory the region is its upper half: the top bit of the address decides (R33). -/
theorem inData_iff_top_bit {c : Config} (h : c.dataHi = .to2047) (a : Addr) : InData c a ↔ a.getLsbD 10 = true := by
  have hmsb : a.msb = decide (1024 ≤ a.toNat) := BitVec.msb_eq_decide a
  have htop : a.toNat ≤ dataHi c := by
    rw [dataHi_eq, if_pos h]
    exact Nat.le_of_lt_succ a.isLt
  calc InData c a ↔ 1024 ≤ a.toNat := and_iff_left htop
    _ ↔ a.msb = true := by rw [hmsb, decide_eq_true_iff]
    _ ↔ a.getLsbD 10 = true := by rw [BitVec.msb_eq_getLsbD_last]

/-- An instruction that names a bad data address only raises InvalidAddress: every other effect has the address checked
(R33, R63). -/
theorem exec_of_badAddress {i : Instr} {a : Addr} {s : State} (hi : i.dataAddr? = some a) (ha : ¬ InData s.cfg a) :
    exec i s = .next (raise (.invalidAddress .data a) s) := by
  obtain ⟨t, hexec, heff⟩ := exec_effect i s
  cases heff with
  | badAddress b hb =>
    cases hb.symm.trans hi
    exact hexec
  | zeroDivisor _ hok | accumulator _ _ hok => exact absurd (hok a hi) ha
  | store _ _ hshape hok | read _ _ hshape hok | write _ _ hshape hok =>
    subst hshape
    cases hi
    exact absurd hok ha
  | jump _ hnone | nothing _ hnone | terminal _ hnone => cases hnone.symm.trans hi

/-- Settles O9: the bound by the value of DATA_HI, the call sites by the one rule for a bad address. -/
theorem dataAddressIsValidatedEverywhere : Obligations.DataAddressIsValidatedEverywhere := by
  refine ⟨fun a s => ?_, fun a s h => ?_, fun i a s hi hbad => ?_⟩
  · rw [← dataHi_eq]
    rfl
  · exact validateData_ok_iff.trans (inData_iff_top_bit h a)
  · exact exec_of_badAddress hi fun ha => hbad (validateData_ok ha)

/-- Settles O10: the nine forms name the address, and the code region lies below the data region. -/
theorem dataAccessNeverReachesCode : Obligations.DataAccessNeverReachesCode := by
  intro a m s ha i hmem
  have hcode : ¬ InData s.cfg a := fun hd => absurd (Nat.le_trans hd.1 ha) (by decide)
  have hnames : i.dataAddr? = some a := by
    revert i
    simp [Instr.dataAddr?]
  exact exec_of_badAddress hnames hcode

/-! ## What a run leaves alone -/

/-- The build and every word outside the data region are as before. -/
def KeepsOutsideData (s t : State) : Prop :=
  t.cfg = s.cfg ∧ ∀ a : Addr, ¬ InData s.cfg a → t.memRead a = s.memRead a

namespace KeepsOutsideData

variable {s t u : State}

theorem of_mem_eq (hc : t.cfg = s.cfg) (hm : t.mem = s.mem) : KeepsOutsideData s t :=
  ⟨hc, fun a _ => by rw [State.memRead, State.memRead, hm]⟩

theorem refl (s : State) : KeepsOutsideData s s := ⟨rfl, fun _ _ => rfl⟩

theorem trans (h : KeepsOutsideData s t) (h' : KeepsOutsideData t u) : KeepsOutsideData s u := by
  obtain ⟨hc, hm⟩ := h
  obtain ⟨hc', hm'⟩ := h'
  rw [hc] at hc' hm'
  exact ⟨hc', fun a ha => (hm' a ha).trans (hm a ha)⟩

theorem of_memWrite (h : s.mem.wf = true) {a : Addr} (ha : InData s.cfg a) (w : Word) :
    KeepsOutsideData s (s.memWrite a w) := by
  refine ⟨rfl, fun b hb => ?_⟩
  have hne : b ≠ a := fun hba => hb (hba ▸ ha)
  rw [memRead_memWrite h, if_neg hne]

/-- A look at the input port writes at most the word of its valid address (R68). -/
theorem of_readEffect (h : s.mem.wf = true) {a : Addr} (ha : InData s.cfg a) (he : ReadEffect a s t) :
    KeepsOutsideData s t := by
  cases he with
  | word p => exact (of_memWrite h ha p.inData).trans (of_mem_eq rfl rfl)
  | _ => exact of_mem_eq rfl rfl

theorem of_outWrite (v : Word) (s : State) : KeepsOutsideData s (outWrite v s) := by
  obtain ⟨hc, hm, -⟩ := outWrite_frame v s
  exact of_mem_eq hc hm

/-- An instruction writes only words whose address it has validated (R33, R43). -/
theorem of_execEffect (h : s.mem.wf = true) {i : Instr} (he : ExecEffect i s t) : KeepsOutsideData s t := by
  cases he with
  | store m a _ ha => exact of_memWrite h ha s.acc
  | read m a _ ha => exact of_readEffect h ha (readInto_effect a s)
  | write m a => exact of_outWrite _ s
  | _ => exact of_mem_eq rfl rfl

/-- Under the invariant a waiting READ has validated its address too, so that no step writes outside the region. -/
theorem of_step (h : s.Inv) (hstep : step s = .next t) : KeepsOutsideData s t := by
  obtain ⟨-, heff⟩ := effect_of_step hstep
  cases heff with
  | stays | guard | noRow => exact of_mem_eq rfl rfl
  | instr i _ _ _ _ _ he =>
    have hlatch : KeepsOutsideData s (latch (s.memRead s.pc) s) := of_mem_eq rfl rfl
    exact hlatch.trans (of_execEffect h.memWf he)
  | resumeIn _ hh =>
    obtain ⟨-, ha, -⟩ := h.waitIn_pending hh
    exact of_readEffect h.memWf ha (readInto_effect s.opd s)
  | resumeOut => exact of_outWrite _ s

theorem of_hostMove (m : HostMove) (s : State) : KeepsOutsideData s (hostMove m s) := by
  cases m <;> exact of_mem_eq rfl rfl

end KeepsOutsideData

theorem hostMove_inv {s : State} (h : s.Inv) (m : HostMove) : (hostMove m s).Inv := by
  cases m with
  | none => exact h
  | offer p => exact driveInput_inv h p
  | outReady b => exact driveOutReady_inv h b

/-- The invariant holds along a run. -/
theorem reaches_inv {s t : State} (h : s.Inv) (hr : Reaches s t) : t.Inv := by
  induction hr with
  | refl => exact h
  | step _ hstep ih => exact step_inv ih hstep
  | host m _ ih => exact hostMove_inv ih m

/-- Settles O11, by induction over the run: the invariant holds in each of its states. -/
theorem runNeverWritesOutsideTheDataRegion : Obligations.RunNeverWritesOutsideTheDataRegion := by
  intro s t h hr
  change KeepsOutsideData s t
  induction hr with
  | refl => exact .refl s
  | step hst hstep ih => exact ih.trans (.of_step (reaches_inv h hst) hstep)
  | host m _ ih => exact ih.trans (.of_hostMove m _)

/-! ## One look at the input port, and the fetched word: an equation per case -/

section ReadInto

variable {s : State} {a : Addr} {p : InPins} {rest : List InPins}

theorem readInto_of_noLook (h : s.inStream = []) : readInto a s = holdIn s := by
  rw [readInto, h]

theorem readInto_of_end (h : s.inStream = p :: rest) (he : p.inEnd = true) :
    readInto a s = raise .inputError { s with inReady := true, hold := .noHold } := by
  simp only [readInto, h, he, if_true]

theorem readInto_of_word (h : s.inStream = p :: rest) (he : p.inEnd = false) (hv : p.inValid = true) :
    readInto a s = { s.memWrite a p.inData with inStream := rest, inReady := true, hold := .noHold } := by
  simp only [readInto, h, he, hv, Bool.false_eq_true, if_false, if_true]

theorem readInto_of_neither (h : s.inStream = p :: rest) (he : p.inEnd = false) (hv : p.inValid = false) :
    readInto a s = holdIn { s with inStream := rest } := by
  simp only [readInto, h, he, hv, Bool.false_eq_true, if_false]

end ReadInto

theorem execWord_of_decode {s : State} {w : Word} {i : Instr} (h : decode s.cfg.opcodeMap w = .ok i) :
    execWord w s = exec i s := by
  rw [execWord, h]

theorem execWord_of_noRow {s : State} {w : Word} {op : BitVec 4}
    (h : decode s.cfg.opcodeMap w = .error (.noRow op)) : execWord w s = .next (raise (.invalidOpcode op) s) := by
  rw [execWord, h]

/-! ## The words above DATA_HI -/

/-- Canonical states that differ at most in the words above DATA_HI. -/
structure Twins (s t : State) : Prop where
  wfLeft : s.mem.wf = true
  wfRight : t.mem.wf = true
  agree : AgreeReachable s t

/-- The state with another memory. -/
def State.withMem (s : State) (m : Memory) : State := { s with mem := m }

/-- Both results are next states, and the states are twins. -/
def TwinResults (r r' : Result) : Prop := ∃ s t, r = .next s ∧ r' = .next t ∧ Twins s t

namespace Twins

variable {s t : State}

/-- A twin is the state with another memory. -/
theorem exists_withMem (h : Twins s t) : ∃ m, t = s.withMem m := ⟨t.mem, h.agree.1⟩

theorem memRead_code (h : Twins s t) {a : Addr} (ha : a.toNat ≤ codeHi) : t.memRead a = s.memRead a :=
  h.agree.2 a (.inl ha)

theorem memRead_data (h : Twins s t) {a : Addr} (ha : InData s.cfg a) : t.memRead a = s.memRead a :=
  h.agree.2 a (.inr ha)

/-- An operation that does not look at memory takes twins to twins. That it leaves memory follows, since the hypothesis
holds for the state's own memory. -/
theorem map (h : Twins s t) {f : State → State} (hf : ∀ m, f (s.withMem m) = (f s).withMem m)
    (hcfg : (f s).cfg = s.cfg) : Twins (f s) (f t) := by
  have hmem : (f s).mem = s.mem :=
    calc (f s).mem = ((f s).withMem s.mem).mem := congrArg State.mem (hf s.mem)
      _ = s.mem := rfl
  obtain ⟨m, rfl⟩ := h.exists_withMem
  obtain ⟨hs, hm, -, hread⟩ := h
  rw [hf]
  refine ⟨by rwa [hmem], hm, rfl, fun a ha => ?_⟩
  rw [hcfg] at ha
  rw [State.memRead, State.memRead, hmem]
  exact hread a ha

/-- The same write on both sides, wherever it goes, keeps the agreement. -/
theorem memWrite (h : Twins s t) (a : Addr) (w : Word) : Twins (s.memWrite a w) (t.memWrite a w) := by
  obtain ⟨m, rfl⟩ := h.exists_withMem
  obtain ⟨hs, hm, -, hread⟩ := h
  refine ⟨memWrite_wf hs a w, memWrite_wf hm a w, rfl, fun b hb => ?_⟩
  rw [memRead_memWrite hs, memRead_memWrite hm, hread b hb]

theorem raise (h : Twins s t) (e : Fault) : Twins (raise e s) (raise e t) := h.map (fun _ => rfl) rfl

theorem setAcc (h : Twins s t) (w : Word) : Twins (s.setAcc w) (t.setAcc w) :=
  h.map (f := (·.setAcc w)) (fun _ => rfl) rfl

theorem setPc (h : Twins s t) (a : Addr) : Twins (s.setPc a) (t.setPc a) := h.map (f := (·.setPc a)) (fun _ => rfl) rfl

theorem jumpIf (h : Twins s t) (b : Bool) (a : Addr) : Twins (jumpIf b a s) (jumpIf b a t) := by
  cases b with
  | true => exact h.setPc a
  | false => exact h

theorem latch (h : Twins s t) (w : Word) : Twins (latch w s) (latch w t) := h.map (fun _ => rfl) rfl

/-- A look at the input port reads no memory, and writes the same word on both sides if any (R67, R68). -/
theorem readInto (h : Twins s t) (a : Addr) : Twins (readInto a s) (readInto a t) := by
  obtain ⟨m, rfl⟩ := h.exists_withMem
  cases hs : s.inStream with
  | nil =>
    rw [readInto_of_noLook hs, readInto_of_noLook (s := s.withMem m) hs]
    exact h.map (fun _ => rfl) rfl
  | cons p rest =>
    cases he : p.inEnd with
    | true =>
      rw [readInto_of_end hs he, readInto_of_end (s := s.withMem m) hs he]
      exact h.map (f := fun s => Machine.raise .inputError { s with inReady := true, hold := .noHold })
        (fun _ => rfl) rfl
    | false =>
      cases hv : p.inValid with
      | true =>
        rw [readInto_of_word hs he hv, readInto_of_word (s := s.withMem m) hs he hv]
        exact (h.memWrite a p.inData).map
          (f := fun s => { s with inStream := rest, inReady := true, hold := .noHold }) (fun _ => rfl) rfl
      | false =>
        rw [readInto_of_neither hs he hv, readInto_of_neither (s := s.withMem m) hs he hv]
        exact h.map (f := fun s => holdIn { s with inStream := rest }) (fun _ => rfl) rfl

/-- OutWrite reads no memory (R69). -/
theorem outWrite (h : Twins s t) (v : Word) : Twins (outWrite v s) (outWrite v t) := by
  obtain ⟨hcfg, -⟩ := outWrite_frame v s
  refine h.map (fun m => ?_) hcfg
  cases hr : s.outReady with
  | true => rw [outWrite_taken hr, outWrite_taken (s := s.withMem m) hr]; rfl
  | false => rw [outWrite_waits hr, outWrite_waits (s := s.withMem m) hr]; rfl

theorem next (h : Twins s t) : TwinResults (.next s) (.next t) := ⟨s, t, rfl, rfl, h⟩

/-- An operand resolves to the same word on both sides: its address is in the data region (R61). -/
theorem resolvesTo (h : Twins s t) {v : Operand} {w : Word} (hv : ResolvesTo s v w) : ResolvesTo t v w := by
  cases v with
  | imm n => exact hv
  | mem a =>
    obtain ⟨ha, hw⟩ := hv
    obtain ⟨m, rfl⟩ := h.exists_withMem
    exact ⟨ha, hw.trans (h.memRead_data ha).symm⟩

theorem resolveFails (h : Twins s t) {v : Operand} (hv : ResolveFails s v) : ResolveFails t v := by
  obtain ⟨m, rfl⟩ := h.exists_withMem
  exact hv

theorem accumulate (h : Twins s t) (v : Operand) (f : Word → Except Fault Word) :
    TwinResults (accumulate v f s) (accumulate v f t) := by
  rcases resolves_or_fails s v with ⟨w, hw⟩ | hbad
  · cases hf : f w with
    | ok r =>
      rw [accumulate_ok hw hf, accumulate_ok (h.resolvesTo hw) hf]
      exact next (h.setAcc r)
    | error e =>
      rw [accumulate_check hw hf, accumulate_check (h.resolvesTo hw) hf]
      exact next (h.raise e)
  · rw [accumulate_address hbad, accumulate_address (h.resolveFails hbad)]
    exact next (h.raise _)

theorem withDataAddr (h : Twins s t) {a : Addr} {f : State → State} (hf : InData s.cfg a → Twins (f s) (f t)) :
    TwinResults (withDataAddr a f s) (withDataAddr a f t) := by
  have hcfg : t.cfg = s.cfg := by
    obtain ⟨m, rfl⟩ := h.exists_withMem
    rfl
  by_cases ha : InData s.cfg a
  · rw [withDataAddr_ok ha, withDataAddr_ok (hcfg ▸ ha)]
    exact next (hf ha)
  · rw [withDataAddr_error ha, withDataAddr_error (hcfg ▸ ha)]
    exact next (h.raise _)

/-- Every instruction takes twins to twins: it reads memory only at a validated data address. -/
theorem exec (h : Twins s t) (i : Instr) : TwinResults (exec i s) (exec i t) := by
  obtain ⟨m, rfl⟩ := h.exists_withMem
  cases i with
  | load v | add v | sub v | mul v | div v | mod v =>
    unfold Machine.exec
    exact h.accumulate v _
  | store _ a => exact h.withDataAddr (f := fun s => s.memWrite a s.acc) fun _ => h.memWrite a s.acc
  | read _ a => exact h.withDataAddr (f := Machine.readInto a) fun _ => h.readInto a
  | write _ a =>
    refine h.withDataAddr (f := fun s => Machine.outWrite (s.memRead a) s) fun ha => ?_
    rw [h.memRead_data ha]
    exact h.outWrite _
  | neg => exact next (h.setAcc _)
  | nop => exact next h
  | jump _ a => exact next (h.setPc a)
  | jneg _ a => exact next (h.jumpIf (accNegative s) a)
  | jzero _ a => exact next (h.jumpIf (accZero s) a)
  | eoc | halt => exact next (h.map (f := stop) (fun _ => rfl) rfl)

theorem execWord (h : Twins s t) (w : Word) : TwinResults (execWord w s) (execWord w t) := by
  obtain ⟨m, rfl⟩ := h.exists_withMem
  cases hd : decode s.cfg.opcodeMap w with
  | ok i =>
    rw [execWord_of_decode hd, execWord_of_decode (s := s.withMem m) hd]
    exact h.exec i
  | error e =>
    obtain ⟨op⟩ := e
    rw [execWord_of_noRow hd, execWord_of_noRow (s := s.withMem m) hd]
    exact next (h.raise _)

/-- A step of twins: the fetched word is the same, since the fetch guard holds it to the code region (R35, R56). -/
theorem step (h : Twins s t) (hl : s.errcode.toNat ≤ 4) : TwinResults (step s) (step t) := by
  obtain ⟨m, rfl⟩ := h.exists_withMem
  have hl' : (s.withMem m).errcode.toNat ≤ 4 := hl
  by_cases hr : s.status = .run
  · cases hh : s.hold with
    | noHold =>
      by_cases hp : s.pc.toNat ≤ codeHi
      · have hword : (s.withMem m).memRead (s.withMem m).pc = s.memRead s.pc := h.memRead_code hp
        rw [step_fetch hl hr hh hp, step_fetch hl' hr hh hp, hword]
        exact (h.latch _).execWord _
      · rw [step_guard hl hr hh (Nat.lt_of_not_le hp), step_guard hl' hr hh (Nat.lt_of_not_le hp)]
        exact next (h.raise _)
    | waitIn =>
      rw [step_waitIn hl hr hh, step_waitIn hl' hr hh]
      exact next (h.readInto s.opd)
    | waitOut =>
      rw [step_waitOut hl hr hh, step_waitOut hl' hr hh]
      exact next (h.outWrite s.outData)
  · rw [step_stays hl hr, step_stays hl' hr]
    exact next h

end Twins

/-- Settles O12: a state that steps has a legal ERRCODE, and the step takes twins to twins. -/
theorem unreachableWordsDoNotMatter : Obligations.UnreachableWordsDoNotMatter := by
  intro s t s' hs ht hagree hstep
  obtain ⟨hlegal, -⟩ := effect_of_step hstep
  obtain ⟨u, t', hu, ht', htwins⟩ := Twins.step ⟨hs, ht, hagree⟩ hlegal
  cases hu.symm.trans hstep
  exact ⟨t', ht', htwins.wfLeft, htwins.wfRight, htwins.agree⟩

end Sys2Proof.Machine
end

section
/-! Encoding (30_encoding.md): the decoder and the encoder are inverse, every word is an instruction and every step
answers, and what the fields of a word and a line of assembly stand for. -/

namespace Sys2Proof.Machine

/-! ## Decoder and encoder -/

/-- A word whose OP has a row is the row's instruction with the word's fields (R60). -/
theorem decode_of_lookup {k : OpcodeMap} {w : Word} {n : Mnemonic} (h : k.lookup (opField w) = some n) :
    decode k w = .ok (.ofFields n (mField w) (opdField w)) := by
  rw [decode, h]

theorem decode_encode {k : OpcodeMap} (hk : k.wf = true) (i : Instr) : decode k (encode k i) = .ok i := by
  obtain ⟨hop, hm, hopd⟩ := Laws.EncodedFields.fields_of_encode i k
  have hrow : k.lookup (opField (encode k i)) = some i.mnemonic := by rw [hop, lookup_number k hk]
  rw [decode_of_lookup hrow, hm, hopd, instr_ofFields_self]

theorem encode_of_decode {k : OpcodeMap} {w : Word} {i : Instr} (h : decode k w = .ok i) : encode k i = w := by
  obtain ⟨hrow, hm, hopd⟩ := decode_ok h
  rw [encode, number_of_lookup hrow, hm, hopd, joinFields_fields]

theorem decode_total {k : OpcodeMap} (hk : k.wf = true) (w : Word) : ∃ i, decode k w = .ok i := by
  obtain ⟨n, hrow⟩ := lookup_total k hk (opField w)
  exact ⟨_, decode_of_lookup hrow⟩

/-- Settles O1: the word carries the instruction's fields, and its number selects the instruction's row. -/
theorem decodeOfEncodeIsTheInstruction : Obligations.DecodeOfEncodeIsTheInstruction := fun _ i hk =>
  decode_encode hk i

/-- Settles O2: a decoded instruction keeps the three fields of its word, and a word is its fields. -/
theorem encodeOfDecodeIsTheWord : Obligations.EncodeOfDecodeIsTheWord := fun _ _ _ => encode_of_decode

/-! ## Every step answers, and none raises InvalidOpcode -/

/-- A look at the input port raises at most InputError (R67). -/
theorem errcode_ne_invalidOpcode_of_readEffect {a : Addr} {s t : State} (he : ReadEffect a s t)
    (hs : s.errcode ≠ 1) : t.errcode ≠ 1 := by
  cases he with
  | ended => simp [errCode]
  | _ => exact hs

theorem outWrite_errcode (v : Word) (s : State) : (outWrite v s).errcode = s.errcode := by
  obtain ⟨-, -, -, -, -, -, -, -, -, herr, -⟩ := outWrite_frame v s
  exact herr

/-- An instruction raises at most InvalidAddress, DivisionByZero or InputError: InvalidOpcode is for a word that is no
instruction (R64, R87). -/
theorem errcode_ne_invalidOpcode_of_execEffect {i : Instr} {s t : State} (he : ExecEffect i s t)
    (hs : s.errcode ≠ 1) : t.errcode ≠ 1 := by
  cases he with
  | badAddress | zeroDivisor => simp [errCode]
  | read m a => exact errcode_ne_invalidOpcode_of_readEffect (readInto_effect a s) hs
  | write m a => rwa [outWrite_errcode]
  | _ => exact hs

/-- Under a map of R49 no step raises InvalidOpcode: the fetched word always has a row (R50). -/
theorem errcode_ne_invalidOpcode_of_stepEffect {s t : State} (hwf : s.cfg.wf = true) (he : StepEffect s t)
    (hs : s.errcode ≠ 1) : t.errcode ≠ 1 := by
  cases he with
  | stays => exact hs
  | guard => simp [errCode]
  | noRow _ _ _ hnone =>
    obtain ⟨n, hrow⟩ := lookup_total s.cfg.opcodeMap hwf (opField (s.memRead s.pc))
    cases hnone.symm.trans hrow
  | instr i _ _ _ _ _ he => exact errcode_ne_invalidOpcode_of_execEffect he hs
  | resumeIn => exact errcode_ne_invalidOpcode_of_readEffect (readInto_effect s.opd s) hs
  | resumeOut => rwa [outWrite_errcode]

/-- Settles O3: every OP has a row, and a word without one is the only source of InvalidOpcode. -/
theorem everyWordIsADefinedInstruction : Obligations.EveryWordIsADefinedInstruction := by
  refine ⟨fun _ w hk => decode_total hk w, fun s t hwf hs hstep => ?_⟩
  obtain ⟨-, heff⟩ := effect_of_step hstep
  exact errcode_ne_invalidOpcode_of_stepEffect hwf heff hs

/-- Settles O18, by the effects of a step with a legal ERRCODE and the refusal of a reserved one. -/
theorem stepAlwaysAnswersUnlessErrcodeIsReserved : Obligations.StepAlwaysAnswersUnlessErrcodeIsReserved := by
  refine fun s => ⟨fun hlegal => ?_, fun hreserved => step_reserved (Nat.not_le.mpr hreserved)⟩
  obtain ⟨t, hstep, -⟩ := step_effect hlegal
  exact ⟨t, hstep⟩

/-! ## The fields of a word -/

theorem mField_toNat (w : Word) : (mField w).toNat = w.toNat / 2048 % 2 := by
  simp only [mField, BitVec.extractLsb'_toNat, Nat.shiftRight_eq_div_pow, Nat.reducePow]

theorem opdField_toNat (w : Word) : (opdField w).toNat = w.toNat % 2048 := by
  simp only [opdField, BitVec.extractLsb'_toNat, Nat.shiftRight_zero, Nat.reducePow]

/-- The word of three fields by number: its fields are the three given, and a number is its quotient and remainders. -/
theorem joinFields_toNat (op : BitVec 4) (m : BitVec 1) (opd : BitVec 11) :
    (joinFields op m opd).toNat = op.toNat * 4096 + m.toNat * 2048 + opd.toNat := by
  have hop := opField_toNat (joinFields op m opd)
  have hm := mField_toNat (joinFields op m opd)
  have hopd := opdField_toNat (joinFields op m opd)
  rw [opField_joinFields] at hop
  rw [mField_joinFields] at hm
  rw [opdField_joinFields] at hopd
  omega

/-- Settles O4, by the number of each field. -/
theorem fieldsOfAWord : Obligations.FieldsOfAWord :=
  ⟨fun w => ⟨opField_toNat w, mField_toNat w, opdField_toNat w⟩, joinFields_toNat⟩

/-- Settles O5, by running the decoder on each of the six words. -/
theorem writtenOutWordsDecodeRight : Obligations.WrittenOutWordsDecodeRight := ⟨rfl, rfl, rfl, rfl, rfl, rfl⟩

/-! ## Lines of assembly -/

theorem operandClass_eq_noOperand_iff (n : Mnemonic) :
    n.operandClass = .noOperand ↔ n ∈ [Mnemonic.neg, .nop, .eoc, .halt] := by
  cases n <;> decide

theorem operandClass_eq_resolved_iff (n : Mnemonic) :
    n.operandClass = .resolved ↔ n ∈ [Mnemonic.load, .add, .sub, .mul, .div, .mod] := by
  cases n <;> decide

theorem asmLine_absent_wf_iff (n : Mnemonic) : (AsmLine.mk n .absent).wf = true ↔ n.operandClass = .noOperand := by
  unfold AsmLine.wf
  cases n.operandClass <;> simp

theorem asmLine_hash_wf_iff (n : Mnemonic) (x : Nat) :
    (AsmLine.mk n (.hash x)).wf = true ↔ n.operandClass = .resolved ∧ x ≤ 2047 := by
  unfold AsmLine.wf
  cases n.operandClass <;> simp

theorem asmLine_plain_wf_iff (n : Mnemonic) (x : Nat) :
    (AsmLine.mk n (.plain x)).wf = true ↔ n.operandClass ≠ .noOperand ∧ x ≤ 2047 := by
  unfold AsmLine.wf
  cases n.operandClass <;> simp

/-- Settles O6: each form of operand is well formed for its operand classes, and each class lists its instructions. -/
theorem assemblyLinesNameInstructions : Obligations.AssemblyLinesNameInstructions := by
  intro n x
  have hnone := operandClass_eq_noOperand_iff n
  have hresolved := operandClass_eq_resolved_iff n
  exact ⟨if_congr ((asmLine_absent_wf_iff n).trans hnone) rfl rfl,
    if_congr ((asmLine_hash_wf_iff n x).trans (and_congr_left' hresolved)) rfl rfl,
    if_congr ((asmLine_plain_wf_iff n x).trans (and_congr_left' (not_congr hnone))) rfl rfl⟩

/-! ## Ignored fields -/

/-- Settles O37: the dispatch hands no ignored field to an instruction's meaning (R51). -/
theorem ignoredFieldsDoNotMatter : Obligations.IgnoredFieldsDoNotMatter := fun _ _ _ _ _ =>
  ⟨rfl, rfl, rfl, rfl, rfl, rfl, rfl, rfl, rfl, rfl⟩

end Sys2Proof.Machine
end

section
/-! The step (40_cycle.md): what it runs when it fetches, and that it writes at most one of ACC, memory and the output. -/

namespace Sys2Proof.Machine

/-! ## A step that fetches -/

/-- Settles O13: `raise` writes STATUS and ERRCODE alone. -/
theorem fetchGuardFaults : Obligations.FetchGuardFaults := fun _ => step_guard

/-- Past the guard a running step is the decoded instruction after Fetch and Decode (R57, R58, R60). -/
theorem step_of_decode {s : State} {i : Instr} (hlegal : s.errcode.toNat ≤ 4) (hr : s.status = .run)
    (hh : s.hold = .noHold) (hp : s.pc.toNat ≤ codeHi) (hd : decode s.cfg.opcodeMap (s.memRead s.pc) = .ok i) :
    step s = exec i (latch (s.memRead s.pc) s) := by
  rw [step_fetch hlegal hr hh hp]
  exact execWord_of_decode hd

/-- Settles O14: in the code region PC + 1 does not wrap, and `latch` is Fetch and Decode. -/
theorem stepRunsTheDecodedInstruction : Obligations.StepRunsTheDecodedInstruction := fun _ _ hlegal hr hh hp hd =>
  ⟨addr_succ_toNat hp, step_of_decode hlegal hr hh hp hd⟩

/-- A map that rejects a word is no map of R49 (R50). -/
theorem wf_eq_false_of_decode_error {k : OpcodeMap} {w : Word} {r : Rejected} (h : decode k w = .error r) :
    k.wf = false := by
  by_contra hwf
  obtain ⟨i, hi⟩ := decode_total (Bool.eq_true_of_not_eq_false hwf) w
  cases h.symm.trans hi

/-- Settles O15: the error is raised in the state after Fetch and Decode. -/
theorem opWithoutARowIsInvalidOpcode : Obligations.OpWithoutARowIsInvalidOpcode := by
  intro s r hlegal hr hh hp hd
  refine ⟨wf_eq_false_of_decode_error hd, ?_⟩
  obtain ⟨-, rfl⟩ := decode_error hd
  rw [step_fetch hlegal hr hh hp]
  exact execWord_of_noRow (s := latch (s.memRead s.pc) s) hd

/-- Settles O16: OP = 0 decodes to EOC and OP = 15 to HALT under every map, and both only stop. -/
theorem terminalWordHalts : Obligations.TerminalWordHalts := by
  intro s hlegal hr hh hp hbits
  rcases (terminal_iff_high_bits (s.memRead s.pc)).mpr hbits with h0 | h15
  · exact step_of_decode hlegal hr hh hp (decode_of_lookup (lookup_terminal.1.mpr h0))
  · exact step_of_decode hlegal hr hh hp (decode_of_lookup (lookup_terminal.2.mpr h15))

/-! ## One of ACC, memory and the output -/

/-- From `s` to `t` memory and the output stay, or the instruction in IR writes one of them, at the valid address OPD,
and ACC stays (R63, R68, R70). -/
def WritesAtMostOne (s t : State) : Prop :=
  (t.mem = s.mem ∧ t.outLog = s.outLog) ∨
  ∃ i, decode s.cfg.opcodeMap t.ir = .ok i ∧ i.dataAddr? = some t.opd ∧ InData s.cfg t.opd ∧ t.acc = s.acc ∧
    (((i.mnemonic = .store ∨ i.mnemonic = .read) ∧ t.outLog = s.outLog ∧
        (i.mnemonic = .store → t.memRead t.opd = s.acc) ∧
        ∀ b : Addr, b ≠ t.opd → t.memRead b = s.memRead b) ∨
      (i.mnemonic = .write ∧ t.mem = s.mem ∧ t.outLog = s.outLog ++ [s.memRead t.opd]))

theorem memRead_memWrite_same {s : State} (hm : s.mem.wf = true) (a : Addr) (w : Word) :
    (s.memWrite a w).memRead a = w := by
  rw [memRead_memWrite hm, if_pos rfl]

theorem memRead_memWrite_of_ne {s : State} (hm : s.mem.wf = true) {a b : Addr} (hb : b ≠ a) (w : Word) :
    (s.memWrite a w).memRead b = s.memRead b := by
  rw [memRead_memWrite hm, if_neg hb]

namespace WritesAtMostOne

variable {s t : State}

theorem of_store {m : BitVec 1} (hm : s.mem.wf = true) (ha : InData s.cfg s.opd)
    (hd : decode s.cfg.opcodeMap s.ir = .ok (.store m s.opd)) : WritesAtMostOne s (s.memWrite s.opd s.acc) :=
  .inr ⟨_, hd, rfl, ha, rfl, .inl ⟨.inl rfl, rfl, fun _ => memRead_memWrite_same hm s.opd s.acc,
    fun _ hb => memRead_memWrite_of_ne hm hb s.acc⟩⟩

/-- Only a look that shows a word writes, and what it writes is the word of the READ's address (R68). -/
theorem of_readEffect {m : BitVec 1} (hm : s.mem.wf = true) (ha : InData s.cfg s.opd)
    (hd : decode s.cfg.opcodeMap s.ir = .ok (.read m s.opd)) (he : ReadEffect s.opd s t) : WritesAtMostOne s t := by
  cases he with
  | word p => exact .inr ⟨_, hd, rfl, ha, rfl, .inl ⟨.inr rfl, rfl, nofun,
      fun _ hb => memRead_memWrite_of_ne hm hb p.inData⟩⟩
  | noLook | neither | ended => exact .inl ⟨rfl, rfl⟩

/-- A WRITE appends its word once out_ready is high, and nothing before (R69, R70). -/
theorem of_outWrite {m : BitVec 1} (ha : InData s.cfg s.opd)
    (hd : decode s.cfg.opcodeMap s.ir = .ok (.write m s.opd)) :
    WritesAtMostOne s (outWrite (s.memRead s.opd) s) := by
  cases hready : s.outReady with
  | true =>
    rw [outWrite_taken hready]
    exact .inr ⟨_, hd, rfl, ha, rfl, .inr ⟨rfl, rfl, rfl⟩⟩
  | false =>
    rw [outWrite_waits hready]
    exact .inl ⟨rfl, rfl⟩

/-- Of the instruction in IR only STORE, READ and WRITE touch memory or the output, and OPD is the address they name. -/
theorem of_execEffect (h : Executing s) {i : Instr} (hd : decode s.cfg.opcodeMap s.ir = .ok i)
    (he : ExecEffect i s t) : WritesAtMostOne s t := by
  cases he with
  | store m a hi ha =>
    subst hi
    obtain rfl : a = s.opd := h.opd_of_decode hd
    exact of_store h.memWf ha hd
  | read m a hi ha =>
    subst hi
    obtain rfl : a = s.opd := h.opd_of_decode hd
    exact of_readEffect h.memWf ha hd (readInto_effect s.opd s)
  | write m a hi ha =>
    subst hi
    obtain rfl : a = s.opd := h.opd_of_decode hd
    exact of_outWrite ha hd
  | badAddress | zeroDivisor | accumulator | jump | nothing | terminal => exact .inl ⟨rfl, rfl⟩

end WritesAtMostOne

/-- Settles O41: Fetch and Decode leave ACC, memory and the output, and a held READ or WRITE goes on as the instruction in
IR, with its address in OPD. -/
theorem stepWritesOneOfAccMemOutput : Obligations.StepWritesOneOfAccMemOutput := by
  intro s t h hstep
  change WritesAtMostOne s t
  obtain ⟨-, heff⟩ := effect_of_step hstep
  cases heff with
  | stays | guard | noRow => exact .inl ⟨rfl, rfl⟩
  | instr i _ hr hh _ hd he =>
    have hlatch := executing_latch (executing_of_noHold h hr hh) (s.memRead s.pc)
    have hwrites : WritesAtMostOne (latch (s.memRead s.pc) s) t := .of_execEffect hlatch hd he
    exact hwrites
  | resumeIn _ hh =>
    obtain ⟨-, ha, m, hd⟩ := h.waitIn_pending hh
    exact .of_readEffect h.memWf ha hd (readInto_effect s.opd s)
  | resumeOut _ hh =>
    obtain ⟨hout, ha, m, hd⟩ := h.waitOut_pending hh
    rw [hout]
    exact .of_outWrite ha hd

end Sys2Proof.Machine
end

section
/-! Data transfer (41_data_transfer.md): what LOAD does to ACC and STORE to memory, and that they do nothing else. -/

namespace Sys2Proof.Machine

/-- STORE at a valid data address is the write of ACC, whatever M is (R66). -/
theorem exec_store_of_inData {s : State} {a : Addr} (ha : InData s.cfg a) (m : BitVec 1) :
    exec (.store m a) s = .next (s.memWrite a s.acc) :=
  withDataAddr_ok (f := fun s => s.memWrite a s.acc) ha

/-- Settles O20: STORE is the memory write, whose words the read-after-write rules give, or the rule for a bad address. -/
theorem storeWritesTheAccumulatorToMemory : Obligations.StoreWritesTheAccumulatorToMemory := by
  intro s m a hm
  refine ⟨fun ha => ?valid, fun ha => ?invalid⟩
  case valid =>
    exact ⟨s.memWrite a s.acc, exec_store_of_inData ha m, rfl, memRead_memWrite_same hm a s.acc,
      fun b hb => memRead_memWrite_of_ne hm hb s.acc⟩
  case invalid => exact exec_of_badAddress rfl ha

/-- LOAD sets ACC to the word its operand resolves to (R65). -/
theorem exec_load_of_resolvesTo {s : State} {v : Operand} {w : Word} (hv : ResolvesTo s v w) :
    exec (.load v) s = .next (s.setAcc w) := accumulate_ok hv rfl

/-- Settles O19: an immediate resolves to its zero extension, a valid data address to its word, and any other address
falls under the rule for a bad address. -/
theorem loadWritesTheAccumulator : Obligations.LoadWritesTheAccumulator := by
  refine fun s => ⟨fun n => ?immediate, fun a ha => ?valid, fun a ha => ?invalid⟩
  case immediate =>
    have hzext : ResolvesTo s (.imm n) (BitVec.ofNat 16 n.toNat) := BitVec.ofNat_toNat 16 n
    exact exec_load_of_resolvesTo hzext
  case valid => exact exec_load_of_resolvesTo (v := .mem a) ⟨ha, rfl⟩
  case invalid => exact exec_of_badAddress rfl ha

end Sys2Proof.Machine
end

section
/-! Input and output (42_io.md): what READ does with each answer, what WRITE emits, how both wait, and that the output
log only grows. -/

namespace Sys2Proof.Machine

/-! ## READ -/

/-- READ at a valid data address is one look at the input port, whatever M is (R68). -/
theorem exec_read_of_inData {s : State} {a : Addr} (ha : InData s.cfg a) (m : BitVec 1) :
    exec (.read m a) s = .next (readInto a s) :=
  withDataAddr_ok ha

/-- Settles O21: an answered word is a memory write;
the read-after-write rules give its words. -/
theorem readStoresTheAnsweredWord : Obligations.ReadStoresTheAnsweredWord := by
  intro s m a hm
  refine ⟨fun p rest ha hin he hv => ?word, fun p rest ha hin he => ?ended, fun ha => ?invalid⟩
  case word =>
    have hread : exec (.read m a) s = .next
        { s.memWrite a p.inData with inStream := rest, inReady := true, hold := .noHold } := by
      rw [exec_read_of_inData ha, readInto_of_word hin he hv]
    exact ⟨_, hread, rfl, memRead_memWrite_same hm a p.inData, fun b hb => memRead_memWrite_of_ne hm hb p.inData⟩
  case ended =>
    rw [exec_read_of_inData ha, readInto_of_end hin he]
    rfl
  case invalid => exact exec_of_badAddress rfl ha

/-- Settles O22: an empty stream and a look that shows neither both hold, and a held core looks again, as Execute of the
READ does. -/
theorem readHoldsUntilAnswered : Obligations.ReadHoldsUntilAnswered := by
  refine ⟨fun s m a ha => ⟨fun hin => ?noLook, fun p rest hin he hv => ?neither⟩, fun s m hlegal hr hh ha => ?resumed⟩
  case noLook =>
    rw [exec_read_of_inData ha, readInto_of_noLook hin]
    rfl
  case neither =>
    rw [exec_read_of_inData ha, readInto_of_neither hin he hv]
    rfl
  case resumed => rw [step_waitIn hlegal hr hh, exec_read_of_inData ha]

/-! ## WRITE -/

/-- WRITE at a valid data address is OutWrite of the word there, whatever M is (R70). -/
theorem exec_write_of_inData {s : State} {a : Addr} (ha : InData s.cfg a) (m : BitVec 1) :
    exec (.write m a) s = .next (outWrite (s.memRead a) s) :=
  withDataAddr_ok (f := fun s => outWrite (s.memRead a) s) ha

/-- Settles O23, by OutWrite with out_ready high and the rule for a bad address. -/
theorem writeEmitsTheDataWord : Obligations.WriteEmitsTheDataWord := by
  refine fun s m a => ⟨fun ha hready => ?valid, fun ha => ?invalid⟩
  case valid => rw [exec_write_of_inData ha, outWrite_taken hready]
  case invalid => exact exec_of_badAddress rfl ha

/-- OutWrite of the word a held WRITE already presents only keeps out_valid high while out_ready is low (R69). -/
theorem outWrite_outData_waits {s : State} (hh : s.hold = .waitOut) (hready : s.outReady = false) :
    outWrite s.outData s = { s with outValid := true } := by
  rw [outWrite_waits hready, ← hh]

/-- Settles O24: the WRITE and each step of the held core are an OutWrite, the latter of the word in out_data. -/
theorem writeHoldsUntilTaken : Obligations.WriteHoldsUntilTaken := by
  refine ⟨fun s m a ha hready => ?presents, fun s hlegal hr hh => ⟨fun hready => ?waits, fun hready => ?taken⟩⟩
  case presents => rw [exec_write_of_inData ha, outWrite_waits hready]
  case waits => rw [step_waitOut hlegal hr hh, outWrite_outData_waits hh hready]
  case taken => rw [step_waitOut hlegal hr hh, outWrite_taken hready]

/-! ## The output log only grows -/

/-- A look at the input port emits nothing (R67). -/
theorem outLog_prefix_readInto (a : Addr) (s : State) : s.outLog <+: (readInto a s).outLog := by
  obtain ⟨-, -, -, -, -, -, -, -, -, -, hlog⟩ := readInto_frame a s
  exact hlog ▸ List.prefix_rfl

theorem outLog_prefix_outWrite (v : Word) (s : State) : s.outLog <+: (outWrite v s).outLog := by
  rcases outWrite_log v s with hlog | hlog
  · exact hlog ▸ List.prefix_append ..
  · exact hlog ▸ List.prefix_rfl

/-- Only WRITE emits, and what it emits goes to the end of the log (R69, R70). -/
theorem outLog_prefix_of_execEffect {i : Instr} {s t : State} (h : ExecEffect i s t) : s.outLog <+: t.outLog := by
  cases h with
  | read m a => exact outLog_prefix_readInto a s
  | write m a => exact outLog_prefix_outWrite (s.memRead a) s
  | _ => exact List.prefix_rfl

theorem outLog_prefix_of_step {s t : State} (h : step s = .next t) : s.outLog <+: t.outLog := by
  obtain ⟨-, heff⟩ := effect_of_step h
  cases heff with
  | stays | guard | noRow => exact List.prefix_rfl
  | instr i _ _ _ _ _ he => exact outLog_prefix_of_execEffect (s := latch (s.memRead s.pc) s) he
  | resumeIn => exact outLog_prefix_readInto s.opd s
  | resumeOut => exact outLog_prefix_outWrite s.outData s

/-- The host answers and takes output, but does not touch the log of a run. -/
theorem hostMove_outLog (m : HostMove) (s : State) : (hostMove m s).outLog = s.outLog := by
  cases m <;> rfl

theorem outLog_prefix_of_reaches {s t : State} (h : Reaches s t) : s.outLog <+: t.outLog := by
  induction h with
  | refl => exact List.prefix_rfl
  | step _ hstep ih => exact ih.trans (outLog_prefix_of_step hstep)
  | host m _ ih => rwa [hostMove_outLog]

/-- Settles O46, by induction over the run: every step and every move of the host only extends the log. -/
theorem outputIsAppendOnly : Obligations.OutputIsAppendOnly := by
  intro s t h
  obtain ⟨emitted, hlog⟩ := outLog_prefix_of_reaches h
  exact ⟨emitted, hlog.symm⟩

end Sys2Proof.Machine
end

section
/-! Arithmetic (43_arithmetic.md): each instruction leaves in ACC the word operation that its exact signed result wraps
to, and how the truncated quotient and its remainder read as signed numbers. -/

namespace Sys2Proof.Machine

/-! ## u16 is arithmetic modulo 2^16 -/

theorem u16_s16 (w : Word) : u16 (s16 w) = w := BitVec.ofInt_toInt

theorem u16_add (i j : Int) : u16 (i + j) = u16 i + u16 j := BitVec.ofInt_add i j

theorem u16_neg (i : Int) : u16 (-i) = -u16 i := BitVec.ofInt_neg

theorem u16_sub (i j : Int) : u16 (i - j) = u16 i - u16 j := by
  rw [sub_eq_add_neg, u16_add, u16_neg, ← sub_eq_add_neg]

theorem u16_mul (i j : Int) : u16 (i * j) = u16 i * u16 j := BitVec.ofInt_mul i j

/-- The wrapped truncated quotient is the signed division of words (R76). -/
theorem u16_truncDiv (a b : Word) : u16 (truncDiv (s16 a) (s16 b)) = a.sdiv b := by
  have hread : (u16 (truncDiv (s16 a) (s16 b))).toInt = (a.toInt.tdiv b.toInt).bmod (2 ^ 16) := BitVec.toInt_ofInt _
  exact BitVec.eq_of_toInt_eq (hread.trans (BitVec.toInt_sdiv a b).symm)

/-- trunc_rem is the library's truncated remainder (R10). -/
theorem truncRem_eq_tmod (i j : Int) : truncRem i j = i.tmod j := (Int.tmod_def i j).symm

/-- The truncated remainder is the signed remainder of words, and does not wrap (R77). -/
theorem u16_truncRem (a b : Word) : u16 (truncRem (s16 a) (s16 b)) = a.srem b := by
  have hread : s16 (a.srem b) = truncRem (s16 a) (s16 b) := (BitVec.toInt_srem a b).trans (truncRem_eq_tmod ..).symm
  rw [← hread, u16_s16]

/-! ## The meanings, said through the shape of the resolved class -/

theorem exec_add (v : Operand) (s : State) :
    exec (.add v) s = accumulate v (fun w => .ok (u16 (s16 s.acc + s16 w))) s := rfl

theorem exec_sub (v : Operand) (s : State) :
    exec (.sub v) s = accumulate v (fun w => .ok (u16 (s16 s.acc - s16 w))) s := rfl

theorem exec_mul (v : Operand) (s : State) :
    exec (.mul v) s = accumulate v (fun w => .ok (u16 (s16 s.acc * s16 w))) s := rfl

theorem exec_div (v : Operand) (s : State) :
    exec (.div v) s = accumulate v (fun w => nonZeroDivisor w (u16 (truncDiv (s16 s.acc) (s16 w)))) s := rfl

theorem exec_mod (v : Operand) (s : State) :
    exec (.mod v) s = accumulate v (fun w => nonZeroDivisor w (u16 (truncRem (s16 s.acc) (s16 w)))) s := rfl

/-! ## ADD, SUB, MUL -/

/-- Addition of the signed readings wraps to the addition of words (R73). -/
theorem u16_s16_add (a b : Word) : u16 (s16 a + s16 b) = a + b := by rw [u16_add, u16_s16, u16_s16]

/-- Subtraction of the signed readings wraps to the subtraction of words (R74). -/
theorem u16_s16_sub (a b : Word) : u16 (s16 a - s16 b) = a - b := by rw [u16_sub, u16_s16, u16_s16]

/-- The low half of the signed product is the product of words (R75). -/
theorem u16_s16_mul (a b : Word) : u16 (s16 a * s16 b) = a * b := by rw [u16_mul, u16_s16, u16_s16]

/-- Settles O25: the wrapped sum is the sum of words, which reads as the unsigned sum modulo 65536. -/
theorem addWrapsTheSignedSum : Obligations.AddWrapsTheSignedSum := by
  refine fun s v => ⟨fun w hv => ⟨?sum, ?unsigned⟩, fun hv => ?invalid⟩
  case sum => exact (exec_add v s).trans (accumulate_ok hv rfl)
  case unsigned => exact (congrArg BitVec.toNat (u16_s16_add s.acc w)).trans (BitVec.toNat_add s.acc w)
  case invalid => exact (exec_add v s).trans (accumulate_address hv)

/-- Settles O26: the wrapped difference is the difference of words. -/
theorem subWrapsTheSignedDifference : Obligations.SubWrapsTheSignedDifference := by
  refine fun s v => ⟨fun w hv => ⟨?difference, u16_s16_sub s.acc w⟩, fun hv => ?invalid⟩
  case difference => exact (exec_sub v s).trans (accumulate_ok hv rfl)
  case invalid => exact (exec_sub v s).trans (accumulate_address hv)

/-- Settles O27: the low half of the product is the product of words, which reads as the unsigned product modulo
65536. -/
theorem mulKeepsTheLowHalf : Obligations.MulKeepsTheLowHalf := by
  refine fun s v => ⟨fun w hv => ⟨?lowHalf, ?unsigned⟩, fun hv => ?invalid⟩
  case lowHalf => exact (exec_mul v s).trans (accumulate_ok hv rfl)
  case unsigned => exact (congrArg BitVec.toNat (u16_s16_mul s.acc w)).trans (BitVec.toNat_mul s.acc w)
  case invalid => exact (exec_mul v s).trans (accumulate_address hv)

/-! ## DIV and MOD -/

/-- DIV by a non-zero operand leaves the signed quotient of words (R76). -/
theorem exec_div_of_resolvesTo {s : State} {v : Operand} {w : Word} (hv : ResolvesTo s v w) (hw : w ≠ 0) :
    exec (.div v) s = .next (s.setAcc (s.acc.sdiv w)) := by
  rw [exec_div, ← u16_truncDiv]
  exact accumulate_ok hv (nonZeroDivisor_ok hw _)

/-- MOD by a non-zero operand leaves the signed remainder of words (R77). -/
theorem exec_mod_of_resolvesTo {s : State} {v : Operand} {w : Word} (hv : ResolvesTo s v w) (hw : w ≠ 0) :
    exec (.mod v) s = .next (s.setAcc (s.acc.srem w)) := by
  rw [exec_mod, ← u16_truncRem]
  exact accumulate_ok hv (nonZeroDivisor_ok hw _)

theorem exec_div_of_zero {s : State} {v : Operand} (hv : ResolvesTo s v 0) :
    exec (.div v) s = .next (raise .divisionByZero s) :=
  (exec_div v s).trans <| accumulate_check hv (nonZeroDivisor_zero _)

theorem exec_mod_of_zero {s : State} {v : Operand} (hv : ResolvesTo s v 0) :
    exec (.mod v) s = .next (raise .divisionByZero s) :=
  (exec_mod v s).trans <| accumulate_check hv (nonZeroDivisor_zero _)

/-- Only -32768 / -1 has a quotient that is no signed word (R76). -/
theorem sdiv_toInt {a b : Word} (h : ¬ (a = 0x8000 ∧ b = 0xFFFF)) : (a.sdiv b).toInt = a.toInt.tdiv b.toInt :=
  BitVec.toInt_sdiv_of_ne_or_ne a b (not_and_or.mp h)

/-- The remainder is smaller than the divisor in absolute value (R77). -/
theorem abs_tmod_lt (i : Int) {j : Int} (hj : j ≠ 0) : |i.tmod j| < |j| := by
  rw [Int.abs_eq_natAbs, Int.abs_eq_natAbs, Int.natAbs_tmod, Int.ofNat_lt]
  exact Nat.mod_lt _ (Int.natAbs_pos.mpr hj)

/-- The remainder of a dividend that is not positive is not positive (R77). -/
theorem tmod_nonpos {i : Int} (j : Int) (hi : i ≤ 0) : i.tmod j ≤ 0 := by
  have hneg : 0 ≤ (-i).tmod j := Int.tmod_nonneg j (neg_nonneg.mpr hi)
  rw [Int.neg_tmod] at hneg
  exact neg_nonneg.mp hneg

/-- a = q*b + r modulo 2^16, also where the quotient wraps: u16 of the exact identity (R77). -/
theorem sdiv_mul_add_srem (a b : Word) : a = a.sdiv b * b + a.srem b := by
  have hexact : truncDiv (s16 a) (s16 b) * s16 b + truncRem (s16 a) (s16 b) = s16 a := by
    rw [truncRem, mul_comm (s16 b), add_sub_cancel]
  calc a = u16 (s16 a) := (u16_s16 a).symm
    _ = u16 (truncDiv (s16 a) (s16 b) * s16 b + truncRem (s16 a) (s16 b)) := by rw [hexact]
    _ = a.sdiv b * b + a.srem b := by rw [u16_add, u16_mul, u16_truncDiv, u16_s16, u16_truncRem]

/-- Settles O28: the quotient is the signed division of words, which reads as the truncated quotient but for
-32768 / -1. -/
theorem divTruncatesTowardZero : Obligations.DivTruncatesTowardZero := by
  refine fun s v => ⟨fun w hv hw => ⟨s.acc.sdiv w, exec_div_of_resolvesTo hv hw, ?wraps, sdiv_toInt⟩,
    fun w hv hw => exec_div_of_zero (hw ▸ hv), fun hv => ?invalid⟩
  case wraps =>
    rintro ⟨ha, rfl⟩
    rw [ha]
    exact BitVec.intMin_sdiv_neg_one
  case invalid => exact (exec_div v s).trans (accumulate_address hv)

/-- Settles O29: the remainder is the signed remainder of words, which reads as the library's truncated remainder, and
quotient and remainder recombine to the dividend. -/
theorem modTakesTheDividendsSign : Obligations.ModTakesTheDividendsSign := by
  refine fun s v => ⟨fun w hv hw => ?nonzero, fun w hv hw => exec_mod_of_zero (hw ▸ hv), fun hv => ?invalid⟩
  case nonzero =>
    refine ⟨s.acc.sdiv w, s.acc.srem w, exec_div_of_resolvesTo hv hw, exec_mod_of_resolvesTo hv hw, ?_⟩
    rw [BitVec.toInt_srem]
    refine ⟨Int.tmod_def .., abs_tmod_lt _ (BitVec.toInt_ne.mpr hw), Int.tmod_nonneg _, tmod_nonpos _,
      fun h => ?exact, sdiv_mul_add_srem s.acc w⟩
    case exact => rw [sdiv_toInt h, Int.tdiv_mul_add_tmod]
  case invalid => exact (exec_mod v s).trans (accumulate_address hv)

/-! ## NEG -/

/-- The complement reads as -x - 1, not as -x (R78). -/
theorem complement_eq_u16 (a : Word) : a ^^^ 0xFFFF = u16 (-s16 a - 1) := by
  calc a ^^^ 0xFFFF = ~~~a := BitVec.xor_allOnes
    _ = -a - 1 := BitVec.not_eq_neg_add a
    _ = u16 (-s16 a - 1) := by rw [u16_sub, u16_neg, u16_s16]; rfl

theorem complement_complement (a : Word) : (a ^^^ 0xFFFF) ^^^ 0xFFFF = a := by
  rw [BitVec.xor_assoc, BitVec.xor_self, BitVec.xor_zero]

/-- Settles O31: NEG is the complement of ACC by definition, without a look at its fields. -/
theorem negComplementsTheAccumulator : Obligations.NegComplementsTheAccumulator := fun s _ _ =>
  ⟨rfl, complement_eq_u16 s.acc, complement_complement s.acc⟩

end Sys2Proof.Machine
end

section
/-! Control (44_control.md): NOP leaves the state of Fetch and Decode, a jump writes PC alone, and the tests of the
conditional jumps read ACC. -/

namespace Sys2Proof.Machine

/-! ## Which way a jump goes -/

/-- A taken jump sets PC (R83). -/
theorem jumpIf_of_test {test : Bool} (h : test = true) (t : Addr) (s : State) : jumpIf test t s = s.setPc t := if_pos h

/-- A jump not taken leaves the state of Fetch and Decode (R83). -/
theorem jumpIf_of_not_test {test : Bool} (h : ¬ test = true) (t : Addr) (s : State) : jumpIf test t s = s := if_neg h

theorem accNegative_iff (s : State) : accNegative s = true ↔ s.acc.toInt < 0 := decide_eq_true_iff

theorem accZero_iff (s : State) : accZero s = true ↔ s.acc = 0 := decide_eq_true_iff

/-- The sign of a word is its bit 15 (R10, R81). -/
theorem toInt_neg_iff_bit15 (w : Word) : w.toInt < 0 ↔ w.getLsbD 15 = true := by
  have hmsb : w.getLsbD 15 = decide (w.toInt < 0) := (BitVec.msb_eq_getLsbD_last w).symm.trans BitVec.msb_eq_toInt
  rw [hmsb, decide_eq_true_iff]

/-! ## The instructions -/

theorem exec_nop (m : BitVec 1) (x : BitVec 11) (s : State) : exec (.nop m x) s = .next s := rfl

theorem exec_jump (m : BitVec 1) (t : Addr) (s : State) : exec (.jump m t) s = .next (s.setPc t) := rfl

theorem exec_jneg (m : BitVec 1) (t : Addr) (s : State) :
    exec (.jneg m t) s = .next (jumpIf (accNegative s) t s) := rfl

theorem exec_jzero (m : BitVec 1) (t : Addr) (s : State) :
    exec (.jzero m t) s = .next (jumpIf (accZero s) t s) := rfl

/-- Settles O32: a step that fetches NOP is `latch` and nothing after it. -/
theorem nopChangesNothing : Obligations.NopChangesNothing := fun s m x =>
  ⟨exec_nop m x s, fun hlegal hr hh hp hd => (step_of_decode hlegal hr hh hp hd).trans (exec_nop m x _)⟩

/-- Settles O33: the target is not validated by JUMP; the guard of the next step is what rejects it. -/
theorem jumpSetsPc : Obligations.JumpSetsPc := fun s m t =>
  ⟨exec_jump m t s, fun hlegal hr hh ht => step_guard (s := s.setPc t) hlegal hr hh ht⟩

/-- Settles O34: the test of JNEG is the sign of ACC. -/
theorem jnegJumpsWhenNegative : Obligations.JnegJumpsWhenNegative := by
  refine fun s m t => ⟨toInt_neg_iff_bit15 s.acc, fun hneg => ?taken, fun hnonneg => ?untaken⟩
  case taken =>
    rw [exec_jneg, jumpIf_of_test ((accNegative_iff s).mpr hneg)]
    rfl
  case untaken => rw [exec_jneg, jumpIf_of_not_test (mt (accNegative_iff s).mp (not_lt.mpr hnonneg))]

/-- Settles O35: the test of JZERO is ACC = 0. -/
theorem jzeroJumpsWhenZero : Obligations.JzeroJumpsWhenZero := by
  refine fun s m t => ⟨fun hzero => ?taken, fun hnonzero => ?untaken⟩
  case taken =>
    rw [exec_jzero, jumpIf_of_test ((accZero_iff s).mpr hzero)]
    rfl
  case untaken => rw [exec_jzero, jumpIf_of_not_test (mt (accZero_iff s).mp hnonzero)]

end Sys2Proof.Machine
end

section
/-! Terminal instructions (45_terminal.md): EOC and HALT stop the machine, whatever their fields hold, and write STATUS
alone. -/

namespace Sys2Proof.Machine

/-! ## The instructions -/

theorem exec_eoc (m : BitVec 1) (x : BitVec 11) (s : State) : exec (.eoc m x) s = .next (stop s) := rfl

theorem exec_halt (m : BitVec 1) (x : BitVec 11) (s : State) : exec (.halt m x) s = .next (stop s) := rfl

/-- Settles O36: each is `stop`, which is the update of STATUS. -/
theorem terminalInstructionsHalt : Obligations.TerminalInstructionsHalt := fun s m x =>
  ⟨exec_eoc m x s, exec_halt m x s⟩

end Sys2Proof.Machine
end

section
/-! Exceptions (60_exceptions.md): what a fault leaves in the state, how the frozen state names the error, and that the
debug port shows all of it. -/

namespace Sys2Proof.Machine

/-! ## Zero divisors -/

/-- Settles O30: the word 0 is what the immediate `#0` and a clear data word resolve to. -/
theorem zeroDivisorFaults : Obligations.ZeroDivisorFaults := by
  refine fun s => ⟨?immediate, fun a ha hzero => ?memory⟩
  case immediate =>
    have hv : ResolvesTo s (.imm 0) 0 := rfl
    exact ⟨exec_div_of_zero hv, exec_mod_of_zero hv⟩
  case memory =>
    have hv : ResolvesTo s (.mem a) 0 := ⟨ha, hzero.symm⟩
    exact ⟨exec_div_of_zero hv, exec_mod_of_zero hv⟩

/-! ## How an instruction and a step can fault -/

/-- The faults of an instruction, with their causes (R87). -/
inductive ExecFault (i : Instr) (s : State) : State → Prop where
  | badAddress (a : Addr) (hi : i.dataAddr? = some a) (ha : ¬ InData s.cfg a) :
      ExecFault i s (raise (.invalidAddress .data a) s)
  | zeroDivisor (hi : i.mnemonic = .div ∨ i.mnemonic = .mod) : ExecFault i s (raise .divisionByZero s)
  | ended (hi : i.mnemonic = .read) : ExecFault i s (raise .inputError { s with inReady := true, hold := .noHold })

/-- The faults of a running step, with their causes (R55, R87). -/
inductive StepFault (s : State) : State → Prop where
  | guard (hh : s.hold = .noHold) (hp : codeHi < s.pc.toNat) : StepFault s (raise (.invalidAddress .fetch s.pc) s)
  | noRow (hh : s.hold = .noHold) (hp : s.pc.toNat ≤ codeHi)
      (hd : s.cfg.opcodeMap.lookup (opField (s.memRead s.pc)) = none) :
      StepFault s (raise (.invalidOpcode (opField (s.memRead s.pc))) (latch (s.memRead s.pc) s))
  | instr (i : Instr) (t : State) (hh : s.hold = .noHold) (hp : s.pc.toNat ≤ codeHi)
      (hd : decode s.cfg.opcodeMap (s.memRead s.pc) = .ok i) (ht : ExecFault i (latch (s.memRead s.pc) s) t) :
      StepFault s t
  | heldEnded (hh : s.hold = .waitIn) : StepFault s (raise .inputError { s with inReady := true, hold := .noHold })

/-- Of the effects of an instruction only a refused address, a zero divisor and an ended input fault. -/
theorem execFault_of_effect {i : Instr} {s t : State} (he : ExecEffect i s t) (hs : s.status ≠ .faulted)
    (ht : t.status = .faulted) : ExecFault i s t := by
  cases he with
  | badAddress a hi ha => exact .badAddress a hi ha
  | zeroDivisor hi => exact .zeroDivisor hi
  | read m a hi =>
    rw [readInto_faulted hs ht]
    exact .ended (by rw [hi]; rfl)
  | write m a =>
    rw [outWrite_status] at ht
    exact absurd ht hs
  | accumulator | store | jump | nothing => exact absurd ht hs
  | terminal => cases ht

theorem stepFault_of_step {s t : State} (hstep : step s = .next t) (hr : s.status = .run)
    (ht : t.status = .faulted) : StepFault s t := by
  have hs : s.status ≠ .faulted := by simp [hr]
  obtain ⟨-, heff⟩ := effect_of_step hstep
  cases heff with
  | stays => exact absurd ht hs
  | guard _ hh hp => exact .guard hh hp
  | noRow _ hh hp hd => exact .noRow hh hp hd
  | instr i _ _ hh hp hd he => exact .instr i t hh hp hd (execFault_of_effect he hs ht)
  | resumeIn _ hh =>
    rw [readInto_faulted hs ht]
    exact .heldEnded hh
  | resumeOut =>
    rw [outWrite_status] at ht
    exact absurd ht hs

/-! ## Precise faults -/

/-- From `s` to `t` the registers, memory, the output log and the input stream stay (R94). -/
structure Frozen (s t : State) : Prop where
  acc : t.acc = s.acc
  mem : t.mem = s.mem
  outLog : t.outLog = s.outLog
  inStream : t.inStream = s.inStream
  registers : t.pc = s.pc ∧ t.ir = s.ir ∧ t.op = s.op ∧ t.m = s.m ∧ t.opd = s.opd

theorem frozen_raise (e : Fault) (s : State) : Frozen s (raise e s) :=
  ⟨rfl, rfl, rfl, rfl, rfl, rfl, rfl, rfl, rfl⟩

/-- An ended input is not consumed, and what READ changes besides is its handshake (R67). -/
theorem frozen_ended (s : State) : Frozen s (raise .inputError { s with inReady := true, hold := .noHold }) :=
  ⟨rfl, rfl, rfl, rfl, rfl, rfl, rfl, rfl, rfl⟩

theorem frozen_of_execFault {i : Instr} {s t : State} (h : ExecFault i s t) : Frozen s t := by
  cases h with
  | badAddress | zeroDivisor => exact frozen_raise _ s
  | ended => exact frozen_ended s

/-- A fault freezes the state before the guard, the state after Fetch and Decode, or the state of a held core. -/
theorem frozen_of_stepFault {s t : State} (h : StepFault s t) :
    (s.hold = .noHold ∧ codeHi < s.pc.toNat ∧ Frozen s t) ∨
    (s.hold = .noHold ∧ s.pc.toNat ≤ codeHi ∧ Frozen (latch (s.memRead s.pc) s) t) ∨
    (s.hold ≠ .noHold ∧ Frozen s t) := by
  cases h with
  | guard hh hp => exact .inl ⟨hh, hp, frozen_raise _ s⟩
  | noRow hh hp => exact .inr (.inl ⟨hh, hp, frozen_raise _ (latch (s.memRead s.pc) s)⟩)
  | instr i _ hh hp _ he => exact .inr (.inl ⟨hh, hp, frozen_of_execFault he⟩)
  | heldEnded hh => exact .inr (.inr ⟨by simp [hh], frozen_ended s⟩)

/-- Settles O42: each of the three places where a fault freezes the state, and `latch` is Fetch and Decode. -/
theorem faultsArePrecise : Obligations.FaultsArePrecise := by
  intro s t hstep hr ht
  rcases frozen_of_stepFault (stepFault_of_step hstep hr ht) with ⟨hh, hp, hf⟩ | ⟨hh, hp, hf⟩ | ⟨hh, hf⟩
  · exact ⟨hf.acc, hf.mem, hf.outLog, hf.inStream, fun _ _ => hf.registers,
      fun _ hp' => absurd hp' (Nat.not_le.mpr hp), absurd hh⟩
  · exact ⟨hf.acc, hf.mem, hf.outLog, hf.inStream, fun _ hp' => absurd hp (Nat.not_le.mpr hp'),
      fun _ _ => hf.registers, absurd hh⟩
  · exact ⟨hf.acc, hf.mem, hf.outLog, hf.inStream, fun hh' => absurd hh' hh, fun hh' => absurd hh' hh,
      fun _ => hf.registers⟩

/-! ## Reading the error back -/

theorem faultReason_of_divisionByZero {s : State} (h : s.errcode = 3) : faultReason s = some .divisionByZero := by
  simp [faultReason, h]

theorem faultReason_of_inputError {s : State} (h : s.errcode = 4) : faultReason s = some .inputError := by
  simp [faultReason, h]

/-- An InvalidAddress is of the fetch kind when the instruction in IR names no invalid address (R89). -/
theorem faultReason_of_served {s : State} (he : s.errcode = 2) {i : Instr} (hd : decode s.cfg.opcodeMap s.ir = .ok i)
    (hs : ∀ a, i.dataAddr? = some a → InData s.cfg a) : faultReason s = some (.invalidAddress .fetch s.pc) := by
  cases hi : i.dataAddr? with
  | none => simp [faultReason, he, hd, hi]
  | some a => simp [faultReason, he, hd, hi, validateData_ok (hs a hi)]

/-- An InvalidAddress is of the data kind when the instruction in IR names an invalid address (R89). -/
theorem faultReason_of_badAddress {s : State} (he : s.errcode = 2) {i : Instr} {a : Addr}
    (hd : decode s.cfg.opcodeMap s.ir = .ok i) (hi : i.dataAddr? = some a) (ha : ¬ InData s.cfg a) :
    faultReason s = some (.invalidAddress .data s.opd) := by
  simp [faultReason, he, hd, hi, validateData_error ha]

/-- The data address an instruction names is its operand field (R48). -/
theorem opd_of_dataAddr {i : Instr} {a : Addr} (h : i.dataAddr? = some a) : i.opd = a := by
  cases i with
  | load v | add v | sub v | mul v | div v | mod v =>
    cases v with
    | imm n => cases h
    | mem b => exact Option.some.inj h
  | store m b | read m b | write m b => exact Option.some.inj h
  | eoc | neg | nop | jump | jneg | jzero | halt => cases h

/-- The reason read from `t` is a fault of the instruction, with its actual cause (R87). -/
def IdentifiesFaultOf (i : Instr) (s t : State) : Prop :=
  (∃ a, i.dataAddr? = some a ∧ ¬ InData s.cfg a ∧ faultReason t = some (.invalidAddress .data a)) ∨
  ((i.mnemonic = .div ∨ i.mnemonic = .mod) ∧ faultReason t = some .divisionByZero) ∨
  (i.mnemonic = .read ∧ faultReason t = some .inputError)

theorem identifiesFaultOf_ended {i : Instr} (hi : i.mnemonic = .read) (s : State) :
    IdentifiesFaultOf i s (raise .inputError { s with inReady := true, hold := .noHold }) :=
  .inr (.inr ⟨hi, faultReason_of_inputError rfl⟩)

/-- Each fault of the instruction in IR is identified: a refused address is in OPD (R89). -/
theorem identifiesFaultOf_execFault {i : Instr} {s t : State} (h : ExecFault i s t)
    (hd : decode s.cfg.opcodeMap s.ir = .ok i) (hopd : i.opd = s.opd) : IdentifiesFaultOf i s t := by
  cases h with
  | badAddress a hi ha =>
    obtain rfl : s.opd = a := hopd.symm.trans (opd_of_dataAddr hi)
    exact .inl ⟨s.opd, hi, ha, faultReason_of_badAddress rfl hd hi ha⟩
  | zeroDivisor hi => exact .inr (.inl ⟨hi, faultReason_of_divisionByZero rfl⟩)
  | ended hi => exact identifiesFaultOf_ended hi s

/-- At the guard IR still holds the instruction before, which was served (R33, R35). -/
theorem faultReason_guard {s : State} (h : s.Inv) (hr : s.status = .run) :
    faultReason (raise (.invalidAddress .fetch s.pc) s) = some (.invalidAddress .fetch s.pc) := by
  obtain ⟨i, hd⟩ := decode_total h.cfgWf s.ir
  exact faultReason_of_served (s := raise (.invalidAddress .fetch s.pc) s) rfl hd
    fun a => h.served (by simp [hr]) i a hd

/-- Settles O43: the guard finds a served instruction in IR, every other fault is one of the instruction in IR. -/
theorem frozenStateIdentifiesTheError : Obligations.FrozenStateIdentifiesTheError := by
  intro s t h hr hstep ht
  cases stepFault_of_step hstep hr ht with
  | guard hh hp => exact .inl ⟨hh, hp, faultReason_guard h hr⟩
  | noRow _ _ hnone =>
    obtain ⟨n, hrow⟩ := lookup_total s.cfg.opcodeMap h.cfgWf (opField (s.memRead s.pc))
    cases hnone.symm.trans hrow
  | instr i _ hh hp hd he =>
    obtain ⟨-, -, -, -, -, hir, -⟩ := frozen_of_execFault he
    obtain ⟨-, -, hopd⟩ := decode_ok hd
    have hreason : IdentifiesFaultOf i (latch (s.memRead s.pc) s) t := identifiesFaultOf_execFault he hd hopd
    refine .inr ⟨fun _ => hp, i, ?_, hreason⟩
    rw [hir]
    exact hd
  | heldEnded hh =>
    obtain ⟨-, -, m, hd⟩ := h.waitIn_pending hh
    exact .inr ⟨fun hno => (by cases hh.symm.trans hno), _, hd, identifiesFaultOf_ended rfl s⟩

/-! ## The debug port -/

theorem statusBits_injective : Function.Injective statusBits := by
  intro x y h
  revert h
  cases x <;> cases y <;> decide

/-- PC is read out zero-extended, which drops none of its bits (R102). -/
theorem setWidth_pc_injective : Function.Injective (fun pc : Addr => pc.setWidth 16) :=
  Function.LeftInverse.injective (g := BitVec.setWidth 11) fun pc =>
    (BitVec.setWidth_setWidth_of_le pc (by decide)).trans pc.setWidth_eq

/-- Settles O57: each register by its own field of the port, memory by the uniqueness of its canonical form. -/
theorem debugPortShowsEverything : Obligations.DebugPortShowsEverything := by
  intro s t hs ht h
  have hview := h 0
  exact ⟨canonicalMemoryIsDeterminedByItsWords s t hs ht fun a => congrArg DebugView.mem (h a),
    congrArg DebugView.acc hview, setWidth_pc_injective (congrArg DebugView.pc hview), congrArg DebugView.ir hview,
    congrArg DebugView.op hview, congrArg DebugView.m hview, congrArg DebugView.opd hview,
    statusBits_injective (congrArg DebugView.status hview), congrArg DebugView.errcode hview⟩

end Sys2Proof.Machine
end

section
/-! Reset and loading (70_reset_and_hazards.md): what `rst` and `start` do, which words the loader copies and where they
stand in memory, when a boot fails, and what a run from a boot reads. -/

namespace Sys2Proof.Machine

/-! ## rst and start -/

/-- Settles O48: each register is a constant in `assertReset`. -/
theorem rstSetsTheRegisters : Obligations.RstSetsTheRegisters := fun _ =>
  ⟨rfl, rfl, rfl, rfl, rfl, rfl, rfl, rfl, rfl, rfl⟩

/-- Settles O50: the clear word at address 0 decodes to EOC. -/
theorem startActsOnlyWhileIdle : Obligations.StartActsOnlyWhileIdle := by
  refine ⟨fun s => ⟨start_idle, start_not_idle⟩, ?_⟩
  exact step_of_decode (s := start State.reset) (Nat.zero_le _) rfl rfl (Nat.zero_le _) (decode_zero _)

/-! ## Writing words through the load port -/

theorem clearMemory_idle {s : State} (h : s.status = .idle) : clearMemory s = { s with mem := [] } := if_pos h

/-- The load port writes memory and nothing else (R28). -/
theorem loadPort_frame (a : Addr) (w : Word) (s : State) : loadPort a w s = s.withMem (loadPort a w s).mem := by
  by_cases hs : s.status = .idle
  · rw [loadPort_idle hs]
    rfl
  · rw [loadPort_not_idle hs]
    rfl

theorem loadWords_frame (i : Nat) (ws : List Word) (s : State) :
    loadWords i ws s = s.withMem (loadWords i ws s).mem := by
  induction ws generalizing i s with
  | nil => rfl
  | cons w ws ih =>
    rw [loadWords, ih, loadPort_frame]
    rfl

section LoadWords

variable {s : State} {i : Nat} {ws : List Word}

theorem loadWords_cons (hs : s.status = .idle) (w : Word) :
    loadWords i (w :: ws) s = loadWords (i + 1) ws (s.memWrite (BitVec.ofNat 11 i) w) := by
  rw [loadWords, loadPort_idle hs]

theorem loadWords_wf (hm : s.mem.wf = true) (hs : s.status = .idle) : (loadWords i ws s).mem.wf = true := by
  induction ws generalizing i s with
  | nil => exact hm
  | cons w ws ih =>
    rw [loadWords_cons hs]
    exact ih (memWrite_wf hm _ w) hs

/-- Words written from address `i` on leave every word below it. -/
theorem memRead_loadWords_below (hm : s.mem.wf = true) (hs : s.status = .idle) (hlen : i + ws.length ≤ memWords)
    {a : Addr} (ha : a.toNat < i) : (loadWords i ws s).memRead a = s.memRead a := by
  induction ws generalizing i s with
  | nil => rfl
  | cons w ws ih =>
    rw [List.length_cons, memWords] at hlen
    have hne : a ≠ BitVec.ofNat 11 i := by bv_omega
    rw [loadWords_cons hs, ih (memWrite_wf hm _ w) hs (by rw [memWords]; omega) (by omega),
      memRead_memWrite_of_ne hm hne]

/-- Words written from address `i` on stand there in order, and the words behind them stay (R106 step 3). -/
theorem memRead_loadWords (hm : s.mem.wf = true) (hs : s.status = .idle) (hlen : i + ws.length ≤ memWords)
    {a : Addr} (ha : i ≤ a.toNat) : (loadWords i ws s).memRead a = ws.getD (a.toNat - i) (s.memRead a) := by
  induction ws generalizing i s with
  | nil => rfl
  | cons w ws ih =>
    have hm' := memWrite_wf hm (BitVec.ofNat 11 i) w
    have hlen' : i + 1 + ws.length ≤ memWords := by rw [List.length_cons] at hlen; omega
    rw [loadWords_cons hs]
    rcases ha.eq_or_lt with hfirst | hlater
    · obtain rfl : a = BitVec.ofNat 11 i := by rw [hfirst, BitVec.ofNat_toNat, BitVec.setWidth_eq]
      rw [memRead_loadWords_below hm' hs hlen' (by omega), memRead_memWrite_same hm, ← hfirst, Nat.sub_self]
      rfl
    · have hne : a ≠ BitVec.ofNat 11 i := by
        rw [List.length_cons, memWords] at hlen
        bv_omega
      rw [ih hm' hs hlen' hlater, memRead_memWrite_of_ne hm hne,
        show a.toNat - i = a.toNat - (i + 1) + 1 by omega, List.getD_cons_succ]

end LoadWords

/-- Settles O51: both memories are canonical and read 0x0000 at every address. -/
theorem clearingThroughTheLoadPort : Obligations.ClearingThroughTheLoadPort := by
  intro s hm hs
  have hwords : ∀ a : Addr, (loadWords 0 (List.replicate memWords 0) s).memRead a = 0 := by
    intro a
    rw [memRead_loadWords hm hs (by simp) (Nat.zero_le _)]
    exact List.getD_replicate _ (addr_lt_memWords a)
  have hmem : (loadWords 0 (List.replicate memWords 0) s).mem = (clearMemory s).mem := by
    rw [clearMemory_idle hs]
    exact canonicalMemoryIsDeterminedByItsWords _ { s with mem := [] } (loadWords_wf hm hs) rfl hwords
  rw [loadWords_frame, hmem, clearMemory_idle hs]
  rfl

/-! ## The copy rule -/

section CopyProgram

variable {room : Nat} {ws : List Word}

theorem copyProgram_nil (room : Nat) : copyProgram room [] = ⟨[], .ok []⟩ := by
  rw [copyProgram]

theorem copyProgram_malformed (room : Nat) (rest : List Token) :
    copyProgram room (.malformed :: rest) = ⟨[], .error .inputError⟩ := by
  rw [copyProgram]

theorem copyProgram_terminator (room : Nat) (rest : List Token) :
    copyProgram (room + 1) (.word 0 :: rest) = ⟨[0], .ok rest⟩ := by
  rw [copyProgram, if_pos rfl]

theorem copyProgram_nonzero {w : Word} (hw : w ≠ 0) (room : Nat) (rest : List Token) :
    copyProgram (room + 1) (.word w :: rest) =
      ⟨w :: (copyProgram room rest).words, (copyProgram room rest).rest⟩ := by
  rw [copyProgram, if_neg hw]

/-- Non-zero words that have room are copied, and the copy goes on with the room they leave (R109). -/
theorem copyProgram_append (hws : ∀ w ∈ ws, w ≠ 0) (hlen : ws.length ≤ room) (tail : List Token) :
    copyProgram room (ws.map .word ++ tail) =
      ⟨ws ++ (copyProgram (room - ws.length) tail).words, (copyProgram (room - ws.length) tail).rest⟩ := by
  induction ws generalizing room with
  | nil => rfl
  | cons w ws ih =>
    cases room with
    | zero => cases hlen
    | succ room =>
      obtain ⟨hw, hws⟩ := List.forall_mem_cons.mp hws
      rw [List.map_cons, List.cons_append, copyProgram_nonzero hw, ih hws (Nat.le_of_succ_le_succ hlen),
        List.length_cons, Nat.add_sub_add_right]
      rfl

/-- A word beyond the room is a LoadError when no terminator stands before it (R108, D18). -/
theorem copyProgram_beyond_room (hws : ∀ w ∈ ws.take room, w ≠ 0) (hlen : room < ws.length) (tail : List Token) :
    (copyProgram room (ws.map .word ++ tail)).rest = .error .loadError := by
  induction ws generalizing room with
  | nil => cases hlen
  | cons w ws ih =>
    cases room with
    | zero => rfl
    | succ room =>
      obtain ⟨hw, hws⟩ := List.forall_mem_cons.mp hws
      rw [List.map_cons, List.cons_append, copyProgram_nonzero hw]
      exact ih hws (Nat.lt_of_succ_lt_succ hlen)

theorem copyProgram_words (hws : ∀ w ∈ ws, w ≠ 0) (hlen : ws.length ≤ room) :
    copyProgram room (ws.map .word) = ⟨ws, .ok []⟩ := by
  have hcopy := copyProgram_append hws hlen []
  rwa [copyProgram_nil, List.append_nil, List.append_nil] at hcopy

theorem copyProgram_words_terminator (hws : ∀ w ∈ ws, w ≠ 0) (hlen : ws.length < room) (rest : List Token) :
    copyProgram room (ws.map .word ++ .word 0 :: rest) = ⟨ws ++ [0], .ok rest⟩ := by
  obtain ⟨left, hleft⟩ : ∃ left, room - ws.length = left + 1 := ⟨room - ws.length - 1, by omega⟩
  rw [copyProgram_append hws hlen.le, hleft, copyProgram_terminator]

end CopyProgram

/-- Settles O52: after the words the copy meets the end of the stream, the terminator, or the malformed token. -/
theorem loaderCopiesUpToTheTerminator : Obligations.LoaderCopiesUpToTheTerminator := by
  refine fun ws rest hws => ⟨copyProgram_words hws, fun hlen => ?terminator, fun hlen => ?malformed⟩
  case terminator => exact copyProgram_words_terminator hws (Nat.lt_succ_of_le hlen) rest
  case malformed => rw [copyProgram_append hws hlen, copyProgram_malformed, List.append_nil]

/-! ## The boot -/

/-- The core after reset, clearing and copying (R106 steps 1 to 3). -/
def loaded (ws : List Word) (s : State) : State := loadWords 0 ws (clearMemory (assertReset s))

theorem loaded_frame (ws : List Word) (s : State) : loaded ws s = (assertReset s).withMem (loaded ws s).mem := by
  rw [loaded, loadWords_frame, clearMemory_idle rfl]
  rfl

/-- The copied words stand from address 0 on, and every other word is 0x0000 (R112). -/
theorem memRead_loaded {ws : List Word} (hlen : ws.length ≤ memWords) (s : State) (a : Addr) :
    (loaded ws s).memRead a = ws.getD a.toNat 0 := by
  rw [loaded, clearMemory_idle rfl]
  exact memRead_loadWords (s := { assertReset s with mem := [] }) rfl rfl (by omega) (Nat.zero_le _)

/-- The state of a run that begins (R112). -/
theorem start_loaded (rest : List Token) (ws : List Word) (s : State) :
    start (feedInput rest (loaded ws s)) =
      { assertReset s with
        mem := (loaded ws s).mem, status := .run, inStream := rest.map tokenPins ++ [endPins] } := by
  rw [loaded_frame, start_idle rfl]
  rfl

theorem sizeOk_iff {n : Nat} : sizeOk n = true ↔ 2 ≤ n ∧ n ≤ 1024 := by
  rw [sizeOk, Bool.and_eq_true, decide_eq_true_iff, decide_eq_true_iff]
  rfl

section Boot

variable {stream : List Token} {s : State}

theorem boot_of_copy_error {e : LoadFailure} (h : (copyProgram maxProgramWords stream).rest = .error e) :
    boot stream s = ⟨loaded (copyProgram maxProgramWords stream).words s, some e⟩ := by
  simp only [boot, h, loaded]

theorem boot_of_copied {rest : List Token} (h : (copyProgram maxProgramWords stream).rest = .ok rest) :
    boot stream s =
      if sizeOk (copyProgram maxProgramWords stream).words.length then
        ⟨start (feedInput rest (loaded (copyProgram maxProgramWords stream).words s)), none⟩
      else ⟨loaded (copyProgram maxProgramWords stream).words s, some .loadError⟩ := by
  simp only [boot, h, loaded]

/-- A boot runs a copied program of a legal size, or it leaves the loaded core and a failure (R106, R113). -/
theorem boot_runs_or_fails (stream : List Token) (s : State) :
    (∃ rest, (copyProgram maxProgramWords stream).rest = .ok rest ∧
      sizeOk (copyProgram maxProgramWords stream).words.length = true ∧
      boot stream s = ⟨start (feedInput rest (loaded (copyProgram maxProgramWords stream).words s)), none⟩) ∨
    ∃ e, boot stream s = ⟨loaded (copyProgram maxProgramWords stream).words s, some e⟩ := by
  cases hrest : (copyProgram maxProgramWords stream).rest with
  | error e => exact .inr ⟨e, boot_of_copy_error hrest⟩
  | ok rest =>
    rw [boot_of_copied hrest]
    by_cases hsize : sizeOk (copyProgram maxProgramWords stream).words.length = true
    · exact .inl ⟨rest, rfl, hsize, if_pos hsize⟩
    · exact .inr ⟨.loadError, if_neg hsize⟩

/-- A boot without a failure copied a program of a legal size, and started it. -/
theorem boot_succeeded (h : (boot stream s).failure = none) :
    ∃ rest, (copyProgram maxProgramWords stream).rest = .ok rest ∧
      sizeOk (copyProgram maxProgramWords stream).words.length = true ∧
      (boot stream s).state =
        { assertReset s with
          mem := (loaded (copyProgram maxProgramWords stream).words s).mem
          status := .run
          inStream := rest.map tokenPins ++ [endPins] } := by
  rcases boot_runs_or_fails stream s with ⟨rest, hrest, hsize, hboot⟩ | ⟨e, hboot⟩
  · exact ⟨rest, hrest, hsize, by rw [hboot, start_loaded]⟩
  · rw [hboot] at h
    cases h

theorem boot_failure_of_copied {rest : List Token} {ws : List Word}
    (h : copyProgram maxProgramWords stream = ⟨ws, .ok rest⟩) :
    (boot stream s).failure = if 2 ≤ ws.length ∧ ws.length ≤ 1024 then none else some .loadError := by
  rw [boot_of_copied (congrArg Copied.rest h), h]
  simp only [sizeOk_iff]
  split_ifs <;> rfl

end Boot

/-- Settles O53: a stream that fits is copied and its size checked, a longer one already fails in the copy. -/
theorem programSizeIsChecked : Obligations.ProgramSizeIsChecked := by
  refine fun s ws rest hws => ⟨?endOfStream, ?terminator⟩
  case endOfStream =>
    by_cases hlen : ws.length ≤ 1024
    · exact boot_failure_of_copied (copyProgram_words hws hlen)
    · have hcopy := copyProgram_beyond_room (fun w hw => hws w (List.mem_of_mem_take hw)) (Nat.lt_of_not_le hlen) []
      rw [List.append_nil] at hcopy
      rw [boot_of_copy_error hcopy, if_neg fun h => hlen h.2]
  case terminator =>
    by_cases hlen : ws.length + 1 ≤ 1024
    · have hboot := boot_failure_of_copied (s := s) (copyProgram_words_terminator hws hlen rest)
      rwa [List.length_append] at hboot
    · have hroom : maxProgramWords ≤ ws.length := Nat.le_of_not_lt hlen
      have hnonzero : ∀ w ∈ (ws ++ [0]).take maxProgramWords, w ≠ 0 := by
        rw [List.take_append_of_le_length hroom]
        exact fun w hw => hws w (List.mem_of_mem_take hw)
      have hcopy := copyProgram_beyond_room hnonzero (by simpa using Nat.lt_succ_of_le hroom) rest
      rw [List.map_append, List.map_singleton, List.append_assoc, List.singleton_append] at hcopy
      rw [boot_of_copy_error hcopy, if_neg fun h => hlen h.2]

/-- Settles O54: the loaded core is the reset core with the program in memory. -/
theorem startStateOfARun : Obligations.StartStateOfARun := by
  intro s stream h
  obtain ⟨rest, -, hsize, hstate⟩ := boot_succeeded h
  obtain ⟨hmin, hmax⟩ := sizeOk_iff.mp hsize
  refine ⟨_, rfl, hmin, hmax, _, rfl, ?_⟩
  rw [hstate]
  exact ⟨rfl, rfl, rfl, rfl, rfl, rfl, rfl, rfl, rfl, memRead_loaded (hmax.trans (by decide)) s⟩

/-- Settles O56: a boot that fails leaves STATUS and ERRCODE as reset set them. -/
theorem failedLoadStaysIdle : Obligations.FailedLoadStaysIdle := by
  intro s stream h
  rcases boot_runs_or_fails stream s with ⟨rest, -, -, hboot⟩ | ⟨e, hboot⟩
  · rw [hboot] at h
    exact absurd rfl h
  · rw [hboot, loaded_frame]
    exact ⟨rfl, rfl⟩

/-! ## The input of a run -/

/-- From the looks `l` to the looks `l'` at most the first is gone, and none that shows the end (R67). -/
def TakesAtMostOneLook (l l' : List InPins) : Prop := l' = l ∨ ∃ p : InPins, p.inEnd = false ∧ l = p :: l'

theorem takesAtMostOneLook_of_readEffect {a : Addr} {s t : State} (h : ReadEffect a s t) :
    TakesAtMostOneLook s.inStream t.inStream := by
  cases h with
  | noLook | ended => exact .inl rfl
  | neither p rest h he | word p rest h he => exact .inr ⟨p, he, h⟩

theorem outWrite_inStream (v : Word) (s : State) : (outWrite v s).inStream = s.inStream := by
  obtain ⟨-, -, -, -, -, -, -, -, -, -, -, hin, -⟩ := outWrite_frame v s
  exact hin

theorem takesAtMostOneLook_of_execEffect {i : Instr} {s t : State} (h : ExecEffect i s t) :
    TakesAtMostOneLook s.inStream t.inStream := by
  cases h with
  | read m a => exact takesAtMostOneLook_of_readEffect (readInto_effect a s)
  | write m a => exact .inl (outWrite_inStream _ s)
  | _ => exact .inl rfl

theorem takesAtMostOneLook_of_step {s t : State} (h : step s = .next t) :
    TakesAtMostOneLook s.inStream t.inStream := by
  obtain ⟨-, heff⟩ := effect_of_step h
  cases heff with
  | stays | guard | noRow => exact .inl rfl
  | instr i _ _ _ _ _ he => exact takesAtMostOneLook_of_execEffect (s := latch (s.memRead s.pc) s) he
  | resumeIn => exact takesAtMostOneLook_of_readEffect (readInto_effect s.opd s)
  | resumeOut => exact .inl (outWrite_inStream _ s)

/-- The looks still to come are those of the last tokens of `rest`, then the end, then what the host has offered since
(R110). -/
def Fed (rest : List Token) (looks : List InPins) : Prop :=
  ∃ (left : List Token) (offered : List InPins), left <:+ rest ∧ looks = left.map tokenPins ++ endPins :: offered

namespace Fed

variable {rest : List Token} {l l' : List InPins}

/-- A look that is taken is a token's, since the end is never taken. -/
theorem of_takesAtMostOneLook (h : Fed rest l) (ht : TakesAtMostOneLook l l') : Fed rest l' := by
  rcases ht with rfl | ⟨p, hp, rfl⟩
  · exact h
  obtain ⟨left, offered, hleft, hl⟩ := h
  cases left with
  | nil =>
    cases hl
    cases hp
  | cons tok left =>
    obtain ⟨-, hl⟩ := List.cons.inj hl
    exact ⟨left, offered, (List.suffix_cons tok left).trans hleft, hl⟩

theorem of_hostMove {s : State} (h : Fed rest s.inStream) (m : HostMove) : Fed rest (hostMove m s).inStream := by
  cases m with
  | none | outReady => exact h
  | offer p =>
    obtain ⟨left, offered, hleft, hl⟩ := h
    refine ⟨left, offered ++ [p], hleft, ?_⟩
    rw [hostMove, driveInput_inStream, hl, List.append_assoc]
    rfl

theorem of_reaches {s t : State} (h : Fed rest s.inStream) (hr : Reaches s t) : Fed rest t.inStream := by
  induction hr with
  | refl => exact h
  | step _ hstep ih => exact ih.of_takesAtMostOneLook (takesAtMostOneLook_of_step hstep)
  | host m _ ih => exact ih.of_hostMove m

/-- When no token was left for the run, the host shows the end. -/
theorem shows_end (h : Fed [] l) : ∃ offered, l = endPins :: offered := by
  obtain ⟨left, offered, hleft, hl⟩ := h
  rw [List.suffix_nil.mp hleft] at hl
  exact ⟨offered, hl⟩

end Fed

/-! ## ERRCODE stays legal along a run, whatever the opcode map (R22) -/

theorem errcode_legal_of_readEffect {a : Addr} {s t : State} (h : ReadEffect a s t) (hs : s.errcode.toNat ≤ 4) :
    t.errcode.toNat ≤ 4 := by
  cases h with
  | ended => exact errCode_legal _
  | _ => exact hs

theorem errcode_legal_of_execEffect {i : Instr} {s t : State} (h : ExecEffect i s t) (hs : s.errcode.toNat ≤ 4) :
    t.errcode.toNat ≤ 4 := by
  cases h with
  | badAddress | zeroDivisor => exact errCode_legal _
  | read m a => exact errcode_legal_of_readEffect (readInto_effect a s) hs
  | write m a => rwa [outWrite_errcode]
  | _ => exact hs

theorem errcode_legal_of_step {s t : State} (h : step s = .next t) : t.errcode.toNat ≤ 4 := by
  obtain ⟨hs, heff⟩ := effect_of_step h
  cases heff with
  | stays => exact hs
  | guard | noRow => exact errCode_legal _
  | instr i _ _ _ _ _ he => exact errcode_legal_of_execEffect (s := latch (s.memRead s.pc) s) he hs
  | resumeIn => exact errcode_legal_of_readEffect (readInto_effect s.opd s) hs
  | resumeOut => rwa [outWrite_errcode]

theorem hostMove_errcode (m : HostMove) (s : State) : (hostMove m s).errcode = s.errcode := by
  cases m <;> rfl

theorem errcode_legal_of_reaches {s t : State} (hs : s.errcode.toNat ≤ 4) (h : Reaches s t) :
    t.errcode.toNat ≤ 4 := by
  induction h with
  | refl => exact hs
  | step _ hstep => exact errcode_legal_of_step hstep
  | host m _ ih => rwa [hostMove_errcode]

/-- READ of a valid address where the host shows the end is an InputError (R91). -/
theorem exec_read_of_end {s : State} {a : Addr} {offered : List InPins} (ha : InData s.cfg a)
    (hin : s.inStream = endPins :: offered) (m : BitVec 1) :
    exec (.read m a) s = .next { s with inReady := true, hold := .noHold, status := .faulted, errcode := 4 } := by
  rw [exec_read_of_inData ha, readInto_of_end hin rfl]
  rfl

/-- Settles O55: the looks of the boot lose at most their tokens along the run, so that without tokens the end is shown
to every READ. -/
theorem inputFollowsTheProgram : Obligations.InputFollowsTheProgram := by
  intro s stream rest h hrest
  obtain ⟨rest', hrest', -, hstate⟩ := boot_succeeded h
  cases hrest.symm.trans hrest'
  rw [hstate]
  refine ⟨rfl, fun t hr => ?_⟩
  have hfed : Fed rest t.inStream := Fed.of_reaches ⟨rest, [], List.suffix_rfl, rfl⟩ hr
  refine ⟨?looks, ?ended⟩
  case looks =>
    obtain ⟨left, offered, hleft, hl⟩ := hfed
    exact ⟨rest.length - left.length, offered, List.suffix_iff_eq_drop.mp hleft ▸ hl⟩
  case ended =>
    rintro rfl hrun m a ha
    obtain ⟨offered, hin⟩ := hfed.shows_end
    have hlegal : t.errcode.toNat ≤ 4 := errcode_legal_of_reaches (Nat.zero_le _) hr
    have hread := exec_read_of_end (s := latch (t.memRead t.pc) t) ha hin m
    exact ⟨exec_read_of_end ha hin m,
      fun hh hp hd => ⟨_, (step_of_decode hlegal hrun hh hp hd).trans hread, rfl, rfl⟩⟩

end Sys2Proof.Machine
end
